-- ==== Sys2Proof/Word.lean ====
section
/-! DEFINITION. The data widths of the card (R10: one byte; R93: a 16-bit event word) and the two closed name sets every
layer uses: the kind of a bus access and the two firmware windows. -/

namespace Sys2Proof

/-- A byte: every register, queue element and datagram payload is one (R10). Bit `n` has weight `2^n` (R11). -/
abbrev Byte := BitVec 8

/-- An event word (R93). -/
abbrev Word := BitVec 16

/-- The kind of a host access (R90). -/
inductive AccessKind where
  | read
  | write
  deriving DecidableEq, Repr

/-- The two read-only firmware windows (R50). -/
inductive FwWindow where
  /-- `FW_A`, 256 bytes -/
  | a
  /-- `FW_B`, 1792 bytes -/
  | b
  deriving DecidableEq, Repr

end Sys2Proof
end

