-- ==== Sys2Proof/Config.lean ====
section
/-! DEFINITION. The implementation parameters of R9, each under the spec's own name with the document's value; the OPEN
ones and the free values are constants with no body, so that nothing can be proved about what they are. -/

namespace Sys2Proof

/-- Width of a register offset in bits (R53, decision D2). -/
abbrev Config.WIN_BITS : Nat := 4

/-- An offset within the register window, `0x0` to `0xF` (R53). -/
abbrev Offset := BitVec Config.WIN_BITS

end Sys2Proof

namespace Sys2Proof.Config

/-- Capacity of `receive_queue` in bytes. -/
abbrev QCAP : Nat := 512
/-- Offset of the flags-out register (write). -/
abbrev OFF_FLAGS_OUT : Offset := 0x7
/-- Offset of the flags-in (status) register (read). -/
abbrev OFF_FLAGS_IN : Offset := 0xB
/-- Offset of the data-out register (write). -/
abbrev OFF_DATA_OUT : Offset := 0xD
/-- Offset of the data-in register (read). -/
abbrev OFF_DATA_IN : Offset := 0xE
/-- Bit of `outputFlagSendRequest` in `output_flags`; it drives no card logic (R22). -/
abbrev BIT_SEND_REQ : Nat := 0
/-- Bit of `outputFlagReceiveConfirm` in `output_flags`. -/
abbrev BIT_RECV_CONF : Nat := 1
/-- Bit of `inputFlagSendConfirm` in `input_flags`. -/
abbrev BIT_SEND_CONF : Nat := 6
/-- Bit of `inputFlagReceiveRequest` in `input_flags`. -/
abbrev BIT_RECV_REQ : Nat := 7
/-- Reset value of `output_flags`. -/
abbrev RST_OUTPUT_FLAGS : Byte := 0xFF#8
/-- Reset value of `input_flags`. -/
abbrev RST_INPUT_FLAGS : Byte := 0xBF#8
/-- Size in bytes of the first firmware window. -/
abbrev FW_A_SIZE : Nat := 256
/-- Size in bytes of the second firmware window. -/
abbrev FW_B_SIZE : Nat := 1792

/-- OPEN (R9, R165, D9): what each byte of `FW_A` that no image populated reads as; any value, fixed for the card's
lifetime. Log entry 2. -/
opaque FW_A : Nat → BitVec 8
/-- OPEN (R9, R165, D9): the same for `FW_B`. Log entry 2. -/
opaque FW_B : Nat → BitVec 8
/-- OPEN (R9, R52, D11): bus address of the register window; no rule of the card depends on it. -/
opaque REG_BASE : Nat
/-- OPEN (R9, R52, D11): bus address of `FW_A`. -/
opaque FW_A_BASE : Nat
/-- OPEN (R9, R52, D11): bus address of `FW_B`. -/
opaque FW_B_BASE : Nat
/-- OPEN (R9): host part of the fixed remote endpoint. Log entry 1. -/
opaque peerHost : String
/-- OPEN (R9): port part of the fixed remote endpoint. Log entry 1. -/
opaque peerPort : Nat
/-- OPEN (R9): the local port "bound ... for receiving"; no rule reads it. -/
opaque receivePort : Nat

/-- FREE VALUE: `draw8()` of R13, the byte a read with no operation puts on the bus (R160), indexed by the draw's
number. Log entry 5. -/
opaque busByte : Nat → BitVec 8
/-- FREE VALUE: whether a send fails (R206), indexed by the draw's number. Log entry 6. -/
opaque sendFails : Nat → Bool

end Sys2Proof.Config

namespace Sys2Proof

/-- Size in bytes of a firmware window (R50). -/
def FwWindow.size : FwWindow → Nat
  | .a => Config.FW_A_SIZE
  | .b => Config.FW_B_SIZE

/-- What a byte of a firmware window that no image populated reads as (R165): the one definition of what an unlisted
address of `Memory` reads as. -/
def FwWindow.unlisted : FwWindow → Nat → Byte
  | .a => Config.FW_A
  | .b => Config.FW_B

/-- Bus address of a firmware window (R52), an OPEN parameter. -/
def FwWindow.base : FwWindow → Nat
  | .a => Config.FW_A_BASE
  | .b => Config.FW_B_BASE

end Sys2Proof
end

