-- ==== Sys2Proof/Machine/Flags.lean ====
section
/-! DEFINITION. Every computation the card makes on a flag byte (R40): set, clear and toggle of one bit, the test of one
bit, and the flag update of each of the four register operations. -/

namespace Sys2Proof.Machine

/-- Set bit `n`: write 1 to it, all other bits unchanged (R12, R13). -/
def setBit (v : Byte) (n : Nat) : Byte := v ||| (1#8 <<< n)
/-- Clear bit `n`: write 0 to it (R12). -/
def clearBit (v : Byte) (n : Nat) : Byte := v &&& ~~~(1#8 <<< n)
/-- Toggle bit `n`: replace it by its complement (R12). -/
def toggleBit (v : Byte) (n : Nat) : Byte := v ^^^ (1#8 <<< n)
/-- `r[n] <- b` of R13. -/
def assignBit (v : Byte) (n : Nat) (b : Bool) : Byte := if b then setBit v n else clearBit v n

/-- `inputFlagReceiveRequest`, bit 7 of `input_flags` (R24). -/
def receiveRequest (inputFlags : Byte) : Bool := inputFlags.getLsbD Config.BIT_RECV_REQ
/-- `inputFlagSendConfirm`, bit 6 of `input_flags` (R24); a bit value, no level is called asserted (R12). -/
def sendConfirm (inputFlags : Byte) : Bool := inputFlags.getLsbD Config.BIT_SEND_CONF
/-- `outputFlagReceiveConfirm`, bit 1 of the value written to flags-out (R22). -/
def receiveConfirm (outputFlags : Byte) : Bool := outputFlags.getLsbD Config.BIT_RECV_CONF
/-- `outputFlagSendRequest`, bit 0 of the value written to flags-out (R22): informational only. -/
def sendRequest (outputFlags : Byte) : Bool := outputFlags.getLsbD Config.BIT_SEND_REQ

/-- The status read's update (R120): clear bit 7 if the queue is non-empty; toggle bit 6, always. -/
def statusReadFlags (inputFlags : Byte) (nonEmpty : Bool) : Byte :=
  toggleBit (if nonEmpty then clearBit inputFlags Config.BIT_RECV_REQ else inputFlags) Config.BIT_SEND_CONF
/-- The data read's update (R121): set bit 7. -/
def dataReadFlags (inputFlags : Byte) : Byte := setBit inputFlags Config.BIT_RECV_REQ
/-- The data write's update (R140): clear bit 6. -/
def dataWriteFlags (inputFlags : Byte) : Byte := clearBit inputFlags Config.BIT_SEND_CONF
/-- The flags write's update (R141): bit 6 becomes the complement of bit 1 of the value being written. -/
def flagsWriteFlags (inputFlags v : Byte) : Byte := assignBit inputFlags Config.BIT_SEND_CONF (!receiveConfirm v)

end Sys2Proof.Machine
end

