-- ==== Sys2Proof/Syntax.lean ====
section
/-! DEFINITION. The events of the card: one constructor per row of spec/opcode_table.json (30_encoding.md, R14). -/

namespace Sys2Proof

/-- A decoded event. The operand `d` of a write or of an inbound byte is the byte itself (R92); a read, and RESET, carry
none. The no-op accesses carry their offset in the constructor's name (R162). -/
inductive Instr where
  /-- read of flags-in, offset `0xB` (R120) -/
  | rdFlagsIn
  /-- read of data-in, offset `0xE` (R121) -/
  | rdDataIn
  /-- write of data-out, offset `0xD` (R140) -/
  | wrDataOut (d : Byte)
  /-- write of flags-out, offset `0x7` (R141) -/
  | wrFlagsOut (d : Byte)
  | rdNop0
  | rdNop1
  | rdNop2
  | rdNop3
  | rdNop4
  | rdNop5
  | rdNop6
  | rdNop7
  | rdNop8
  | rdNop9
  | rdNopA
  | rdNopC
  | rdNopD
  | rdNopF
  | wrNop0 (d : Byte)
  | wrNop1 (d : Byte)
  | wrNop2 (d : Byte)
  | wrNop3 (d : Byte)
  | wrNop4 (d : Byte)
  | wrNop5 (d : Byte)
  | wrNop6 (d : Byte)
  | wrNop8 (d : Byte)
  | wrNop9 (d : Byte)
  | wrNopA (d : Byte)
  | wrNopB (d : Byte)
  | wrNopC (d : Byte)
  | wrNopE (d : Byte)
  | wrNopF (d : Byte)
  /-- the LISTENER offers one inbound byte (R201) -/
  | rxByte (d : Byte)
  /-- the reset event (R260) -/
  | reset
  deriving DecidableEq, Repr

/-- The event's mnemonic in spec/opcode_table.json. -/
def Instr.mnemonic : Instr → String
  | .rdFlagsIn => "RD_FLAGS_IN"
  | .rdDataIn => "RD_DATA_IN"
  | .wrDataOut _ => "WR_DATA_OUT"
  | .wrFlagsOut _ => "WR_FLAGS_OUT"
  | .rdNop0 => "RD_NOP_0"
  | .rdNop1 => "RD_NOP_1"
  | .rdNop2 => "RD_NOP_2"
  | .rdNop3 => "RD_NOP_3"
  | .rdNop4 => "RD_NOP_4"
  | .rdNop5 => "RD_NOP_5"
  | .rdNop6 => "RD_NOP_6"
  | .rdNop7 => "RD_NOP_7"
  | .rdNop8 => "RD_NOP_8"
  | .rdNop9 => "RD_NOP_9"
  | .rdNopA => "RD_NOP_A"
  | .rdNopC => "RD_NOP_C"
  | .rdNopD => "RD_NOP_D"
  | .rdNopF => "RD_NOP_F"
  | .wrNop0 _ => "WR_NOP_0"
  | .wrNop1 _ => "WR_NOP_1"
  | .wrNop2 _ => "WR_NOP_2"
  | .wrNop3 _ => "WR_NOP_3"
  | .wrNop4 _ => "WR_NOP_4"
  | .wrNop5 _ => "WR_NOP_5"
  | .wrNop6 _ => "WR_NOP_6"
  | .wrNop8 _ => "WR_NOP_8"
  | .wrNop9 _ => "WR_NOP_9"
  | .wrNopA _ => "WR_NOP_A"
  | .wrNopB _ => "WR_NOP_B"
  | .wrNopC _ => "WR_NOP_C"
  | .wrNopE _ => "WR_NOP_E"
  | .wrNopF _ => "WR_NOP_F"
  | .rxByte _ => "RX_BYTE"
  | .reset => "RESET"

end Sys2Proof
end

