-- ==== Sys2Proof/Decode.lean ====
section
/-! DEFINITION. The register-map dispatch of an access tuple (R51, R61, R91), the decoder of the 16-bit event word (R98),
total, refusing by name, the encoder (R94 to R97) and the opcode table's match and mask as data. -/

namespace Sys2Proof

/-! ## Dispatch of an access tuple -/

/-- The opcode-table row of a read with no operation at `off` (R162). Asked only about the offsets to which the register
map gives no read; one that a corrected parameter frees has no row of its own and takes the last (log entry 13). -/
def readNopAt (off : Offset) : Instr :=
  match off.toNat with
  | 0 => .rdNop0
  | 1 => .rdNop1
  | 2 => .rdNop2
  | 3 => .rdNop3
  | 4 => .rdNop4
  | 5 => .rdNop5
  | 6 => .rdNop6
  | 7 => .rdNop7
  | 8 => .rdNop8
  | 9 => .rdNop9
  | 10 => .rdNopA
  | 12 => .rdNopC
  | 13 => .rdNopD
  | _ => .rdNopF

/-- The row of a write with no operation of `v` at `off` (R162), in the same way. -/
def writeNopAt (off : Offset) (v : Byte) : Instr :=
  match off.toNat with
  | 0 => .wrNop0 v
  | 1 => .wrNop1 v
  | 2 => .wrNop2 v
  | 3 => .wrNop3 v
  | 4 => .wrNop4 v
  | 5 => .wrNop5 v
  | 6 => .wrNop6 v
  | 8 => .wrNop8 v
  | 9 => .wrNop9 v
  | 10 => .wrNopA v
  | 11 => .wrNopB v
  | 12 => .wrNopC v
  | 14 => .wrNopE v
  | _ => .wrNopF v

/-- The step a read of `off` selects: the two readable registers of the map (R51), else no operation. -/
def dispatchRead (off : Offset) : Instr :=
  if off = Config.OFF_FLAGS_IN then .rdFlagsIn
  else if off = Config.OFF_DATA_IN then .rdDataIn
  else readNopAt off

/-- The step a write of `v` to `off` selects: the two writable registers of the map (R51), else no operation. -/
def dispatchWrite (off : Offset) (v : Byte) : Instr :=
  if off = Config.OFF_FLAGS_OUT then .wrFlagsOut v
  else if off = Config.OFF_DATA_OUT then .wrDataOut v
  else writeNopAt off v

/-- The dispatcher: "(register offset, access kind, value)" to one step (R61, R90). A read's value carries no meaning. -/
def dispatch (off : Offset) (k : AccessKind) (v : Byte) : Instr :=
  match k with
  | .read => dispatchRead off
  | .write => dispatchWrite off v

/-! ## Decoding -/

/-- Why a word spells no event (R98, R99). -/
inductive DecodeError where
  /-- bit 13, `z`, is 1 -/
  | reservedBitSet
  /-- class `11` -/
  | reservedClass
  /-- a read with `d` not zero -/
  | readCarriesData
  /-- class `01` with `k` or `off` not zero -/
  | strayBitsInRxb
  /-- class `10` and not the word `0x8000` -/
  | strayBitsInRst
  deriving DecidableEq, Repr

/-- Bits 15:14, the event class (R93). -/
def fieldCls (w : Word) : BitVec 2 := w.extractLsb' 14 2
/-- Bit 13, reserved (R93). -/
def fieldZ (w : Word) : Bool := w.getLsbD 13
/-- Bit 12, the access kind (R93): 1 is a write. -/
def fieldK (w : Word) : Bool := w.getLsbD 12
/-- Bits 11:8, the register offset (R93): `WIN_BITS` bits from bit 8 on. -/
def fieldOff (w : Word) : Offset := w.extractLsb' 8 Config.WIN_BITS
/-- Bits 7:0, the data byte (R93). -/
def fieldD (w : Word) : Byte := w.extractLsb' 0 8

/-- The decoding algorithm of R98, total on all words. -/
def decode (w : Word) : Except DecodeError Instr :=
  if fieldZ w then .error .reservedBitSet
  else if fieldCls w = 0b11#2 then .error .reservedClass
  else if fieldCls w = 0b10#2 then
    if w = 0x8000#16 then .ok .reset else .error .strayBitsInRst
  else if fieldCls w = 0b01#2 then
    if fieldK w = false ∧ fieldOff w = 0 then .ok (.rxByte (fieldD w)) else .error .strayBitsInRxb
  else if fieldK w then .ok (dispatch (fieldOff w) .write (fieldD w))
  else if fieldD w = 0#8 then .ok (dispatch (fieldOff w) .read 0#8)
  else .error .readCarriesData

/-- The event word whose bits the opcode table numbers as `w`, `nbits` of them. The table gives every row 16 bits, one
word, bit 15 the most significant (R93), and the card has no byte order (R54), so the number is the word. -/
def tableWord (nbits w : Nat) : Word := BitVec.ofNat 16 (w % 2 ^ nbits)

/-- The event the decoder reads from a table word. -/
def decodeTableWord (nbits w : Nat) : Option Instr :=
  match decode (tableWord nbits w) with
  | .ok i => some i
  | .error _ => none

/-! ## Encoding -/

/-- A word of format ACC, `00 0 k oooo dddddddd` (R94): `k` at bit 12, `off` at bits 11:8, `d` at bits 7:0. -/
def accWord (k : Bool) (off : Offset) (d : Byte) : Word :=
  (BitVec.ofBool k).setWidth 16 <<< 12 ||| off.setWidth 16 <<< 8 ||| d.setWidth 16
/-- The word of a read (R94): `k` = 0, `d` = 0. -/
def readWord (off : Offset) : Word := accWord false off 0#8
/-- The word of a write (R94): `k` = 1. -/
def writeWord (off : Offset) (d : Byte) : Word := accWord true off d
/-- A word of format RXB, `01 0 0 0000 dddddddd` (R95): class `01` at bits 15:14, `d` at bits 7:0. -/
def rxbWord (d : Byte) : Word := 0x4000#16 ||| d.setWidth 16
/-- The word of format RST (R96). -/
def rstWord : Word := 0x8000#16

/-- The event word of an event: the inverse of `decode` (R98). -/
def encode : Instr → Word
  | .rdFlagsIn => readWord Config.OFF_FLAGS_IN
  | .rdDataIn => readWord Config.OFF_DATA_IN
  | .wrDataOut d => writeWord Config.OFF_DATA_OUT d
  | .wrFlagsOut d => writeWord Config.OFF_FLAGS_OUT d
  | .rdNop0 => readWord 0x0
  | .rdNop1 => readWord 0x1
  | .rdNop2 => readWord 0x2
  | .rdNop3 => readWord 0x3
  | .rdNop4 => readWord 0x4
  | .rdNop5 => readWord 0x5
  | .rdNop6 => readWord 0x6
  | .rdNop7 => readWord 0x7
  | .rdNop8 => readWord 0x8
  | .rdNop9 => readWord 0x9
  | .rdNopA => readWord 0xA
  | .rdNopC => readWord 0xC
  | .rdNopD => readWord 0xD
  | .rdNopF => readWord 0xF
  | .wrNop0 d => writeWord 0x0 d
  | .wrNop1 d => writeWord 0x1 d
  | .wrNop2 d => writeWord 0x2 d
  | .wrNop3 d => writeWord 0x3 d
  | .wrNop4 d => writeWord 0x4 d
  | .wrNop5 d => writeWord 0x5 d
  | .wrNop6 d => writeWord 0x6 d
  | .wrNop8 d => writeWord 0x8 d
  | .wrNop9 d => writeWord 0x9 d
  | .wrNopA d => writeWord 0xA d
  | .wrNopB d => writeWord 0xB d
  | .wrNopC d => writeWord 0xC d
  | .wrNopE d => writeWord 0xE d
  | .wrNopF d => writeWord 0xF d
  | .rxByte d => rxbWord d
  | .reset => rstWord

/-! ## The opcode table as data -/

/-- One row of spec/opcode_table.json: a word `w` is of the row when `w AND mask = pattern`. -/
structure OpcodeRow where
  mnemonic : String
  pattern : Word
  mask : Word
  deriving DecidableEq, Repr

/-- Does the word belong to the row? -/
def OpcodeRow.covers (r : OpcodeRow) (w : Word) : Bool := w &&& r.mask == r.pattern

/-- The four register operations, the inbound byte and reset. -/
def definedRows : List OpcodeRow := [
  ⟨"RD_FLAGS_IN", 0x0B00#16, 0xFFFF#16⟩,
  ⟨"RD_DATA_IN", 0x0E00#16, 0xFFFF#16⟩,
  ⟨"WR_DATA_OUT", 0x1D00#16, 0xFF00#16⟩,
  ⟨"WR_FLAGS_OUT", 0x1700#16, 0xFF00#16⟩,
  ⟨"RX_BYTE", 0x4000#16, 0xFF00#16⟩,
  ⟨"RESET", 0x8000#16, 0xFFFF#16⟩]

/-- The 14 reads with no operation (R162). -/
def readNopRows : List OpcodeRow := [
  ⟨"RD_NOP_0", 0x0000#16, 0xFFFF#16⟩,
  ⟨"RD_NOP_1", 0x0100#16, 0xFFFF#16⟩,
  ⟨"RD_NOP_2", 0x0200#16, 0xFFFF#16⟩,
  ⟨"RD_NOP_3", 0x0300#16, 0xFFFF#16⟩,
  ⟨"RD_NOP_4", 0x0400#16, 0xFFFF#16⟩,
  ⟨"RD_NOP_5", 0x0500#16, 0xFFFF#16⟩,
  ⟨"RD_NOP_6", 0x0600#16, 0xFFFF#16⟩,
  ⟨"RD_NOP_7", 0x0700#16, 0xFFFF#16⟩,
  ⟨"RD_NOP_8", 0x0800#16, 0xFFFF#16⟩,
  ⟨"RD_NOP_9", 0x0900#16, 0xFFFF#16⟩,
  ⟨"RD_NOP_A", 0x0A00#16, 0xFFFF#16⟩,
  ⟨"RD_NOP_C", 0x0C00#16, 0xFFFF#16⟩,
  ⟨"RD_NOP_D", 0x0D00#16, 0xFFFF#16⟩,
  ⟨"RD_NOP_F", 0x0F00#16, 0xFFFF#16⟩]

/-- The 14 writes with no operation (R162). -/
def writeNopRows : List OpcodeRow := [
  ⟨"WR_NOP_0", 0x1000#16, 0xFF00#16⟩,
  ⟨"WR_NOP_1", 0x1100#16, 0xFF00#16⟩,
  ⟨"WR_NOP_2", 0x1200#16, 0xFF00#16⟩,
  ⟨"WR_NOP_3", 0x1300#16, 0xFF00#16⟩,
  ⟨"WR_NOP_4", 0x1400#16, 0xFF00#16⟩,
  ⟨"WR_NOP_5", 0x1500#16, 0xFF00#16⟩,
  ⟨"WR_NOP_6", 0x1600#16, 0xFF00#16⟩,
  ⟨"WR_NOP_8", 0x1800#16, 0xFF00#16⟩,
  ⟨"WR_NOP_9", 0x1900#16, 0xFF00#16⟩,
  ⟨"WR_NOP_A", 0x1A00#16, 0xFF00#16⟩,
  ⟨"WR_NOP_B", 0x1B00#16, 0xFF00#16⟩,
  ⟨"WR_NOP_C", 0x1C00#16, 0xFF00#16⟩,
  ⟨"WR_NOP_E", 0x1E00#16, 0xFF00#16⟩,
  ⟨"WR_NOP_F", 0x1F00#16, 0xFF00#16⟩]

/-- All 34 rows. -/
def opcodeTable : List OpcodeRow := definedRows ++ readNopRows ++ writeNopRows

end Sys2Proof
end

