-- ==== Sys2Proof/Machine/Input.lean ====
section
/-! DEFINITION. What the environment can present to the card next: the plain data that `State.inputs` holds. -/

namespace Sys2Proof.Machine

/-- One entry of the environment's interleaving (R66). The HOST's entries stand in the order the HOST issues them, the
LISTENER's in arrival order; how the two are merged is the environment's choice, and is data. -/
inductive Input where
  /-- an event word (R93): a register access, an inbound byte or a reset -/
  | event (w : Word)
  /-- the point at which the HOST's stalled data-in read completes, if its completion is enabled there (R121, R281) -/
  | completion
  /-- an inbound datagram that errored (R203) -/
  | receiveFailure
  /-- a register access as the source states it, "(register offset, access kind, value)" (R90), with its width in bits -/
  | access (bits off : Nat) (k : AccessKind) (v : Byte)
  /-- `RDFW` (R103, R163) -/
  | firmwareRead (w : FwWindow) (off : Nat)
  /-- a write to a firmware window (R164) -/
  | firmwareWrite (w : FwWindow) (off : Nat) (v : Byte)
  deriving DecidableEq, Repr

end Sys2Proof.Machine
end

