-- ==== Sys2Proof/Machine/State.lean ====
section
/-! DEFINITION. The state of the card and what the spec puts around it (10_state.md), as plain data; the reasons a step can
stop; the machine right after construction. -/

namespace Sys2Proof.Machine

/-- The fixed remote endpoint, "(host, port)", opaque to the card (R9, R20). -/
structure PeerEndpoint where
  host : String
  port : Nat
  deriving DecidableEq, Repr

/-- The architectural state of one card (R20): three mutable members and one immutable one. -/
structure CardState where
  /-- flags last written by the host (R21, R22) -/
  outputFlags : Byte
  /-- flags last computed by the card for the host to read (R23, R24) -/
  inputFlags : Byte
  /-- the receive FIFO, oldest byte first (R27, R180) -/
  receiveQueue : List Byte
  /-- immutable for the card's lifetime (R20, R208) -/
  peerEndpoint : PeerEndpoint
  deriving DecidableEq, Repr

/-- Whether the HOST is committed to a data-in read that has not completed (R34). -/
inductive HostPending where
  | idle
  | stalledOnDataIn
  deriving DecidableEq, Repr

/-- The diagnostic events (R221): the closed enumeration of the five kinds. -/
inductive WarnKind where
  | transportSendFailure
  | transportReceiveFailure
  | queueFull
  | firmwareLoadFailure
  | socketOpenFailure
  deriving DecidableEq, Repr

/-- Where a byte returned on the bus came from. -/
inductive ReadSource where
  | register (off : Offset)
  | firmware (w : FwWindow) (off : Nat)
  deriving DecidableEq, Repr

/-- A completed read: its source and the byte put on the bus (`return v`, R13). -/
structure ReadResult where
  source : ReadSource
  data : Byte
  deriving DecidableEq, Repr

/-- The populated bytes of one firmware window: (offset, byte) pairs in canonical form (`Memory.wf`, Ops.lean). An
offset that is not listed reads as `FwWindow.unlisted`. -/
abbrev Memory := List Host.Cell

/-- The machine: the card, the state outside it that the rules name, and the model's own observation fields. -/
structure State where
  /-- `CardState` (R20) -/
  card : CardState
  /-- the stalled access (R34) -/
  hostPending : HostPending
  /-- populated bytes of `FW_A` (R165) -/
  fwA : Memory
  /-- populated bytes of `FW_B` (R165) -/
  fwB : Memory
  /-- in-flight inbound bytes (R35) and accesses not issued yet, in the environment's order -/
  inputs : List Input
  /-- bytes handed to the transport, in order (R36) -/
  txLog : List Byte
  /-- diagnostic events, in order (R36, R221) -/
  warnLog : List WarnKind
  /-- MODEL'S OWN: bytes returned on the bus, in order (log entry 4) -/
  readLog : List ReadResult
  /-- MODEL'S OWN: number of free values drawn so far (log entry 5) -/
  drawCount : Nat
  deriving DecidableEq, Repr

/-- Why a step stops the machine with a fault. No event of the card does (R238). -/
inductive Fault where
  /-- an access to an offset in no window (R53, R163), raised by `runInput`, `firmwareRead` and `firmwareWrite`; the spec
  says it is no access to the card at all. Safe: the model stops where the bus goes elsewhere. Log entry 9. -/
  | outsideWindow
  deriving DecidableEq, Repr

/-- Why a step has no meaning. -/
inductive Refusal where
  /-- an event with no meaning in `exec` yet; no arm raises it. Safe. -/
  | notModelled (mnemonic : String)
  /-- a word that spells no event (R98, R99), raised by `runInput`. Safe: "no step exists for them". Log entry 10. -/
  | noSuchEvent (e : DecodeError)
  /-- an access of a width other than 8 bits (R57), raised by `runInput`. Safe: it is never split. Log entry 10. -/
  | accessWidth (bits : Nat)
  deriving DecidableEq, Repr

/-- The machine right after construction (R37, R264): the card at its reset values, the histories empty, the firmware
windows holding their parameters, nothing in flight. -/
def State.reset : State where
  card :=
    { outputFlags := Config.RST_OUTPUT_FLAGS
      inputFlags := Config.RST_INPUT_FLAGS
      receiveQueue := []
      peerEndpoint := { host := Config.peerHost, port := Config.peerPort } }
  hostPending := .idle
  fwA := []
  fwB := []
  inputs := []
  txLog := []
  warnLog := []
  readLog := []
  drawCount := 0

end Sys2Proof.Machine
end

