-- ==== Sys2Proof/Machine/Operands.lean ====
section
/-! DEFINITION. Operand assembly (R92) and addressing (R52, R53): the only addressing mode is an offset in a window. -/

namespace Sys2Proof.Machine

/-- Is the offset in the register window (R53)? -/
def inRegisterWindow (off : Nat) : Bool := decide (off < 2 ^ Config.WIN_BITS)

/-- The offset field of an access to the register window: used as it stands, unsigned (R92). -/
def offsetOperand (off : Nat) : Offset := BitVec.ofNat Config.WIN_BITS off

/-- The effective bus address of a register access, `REG_BASE + off` (R52). The card sees only `off`. -/
def registerAddress (off : Offset) : Nat := Config.REG_BASE + off.toNat

/-- The effective bus address of a firmware access (R52). -/
def firmwareAddress (w : FwWindow) (off : Nat) : Nat := w.base + off

/-- The contents list of a firmware window. -/
def State.firmware (s : State) (w : FwWindow) : Memory :=
  match w with
  | .a => s.fwA
  | .b => s.fwB

end Sys2Proof.Machine
end

