-- ==== Sys2Proof/Machine/Ops.lean ====
section
/-! DEFINITION. The named operations over the state: one setter per field, the pseudocode primitives of R13, the four
queue primitives (R181 to R184), firmware-window memory, the host's turn and the data-in completion. The card has no
exception entry and no return (R220, R230, R231): what the spec writes `raise <Exception>(info)` is `State.warn`. -/

namespace Sys2Proof.Machine

/-! ## Setters -/

/-- `output_flags <- v` -/
def State.setOutputFlags (s : State) (v : Byte) : State := { s with card := { s.card with outputFlags := v } }
/-- `input_flags <- v` -/
def State.setInputFlags (s : State) (v : Byte) : State := { s with card := { s.card with inputFlags := v } }
/-- `q <- v` -/
def State.setQueue (s : State) (q : List Byte) : State := { s with card := { s.card with receiveQueue := q } }
/-- `host_pending <- p` (R34) -/
def State.setPending (s : State) (p : HostPending) : State := { s with hostPending := p }
/-- The inputs that are left after one was taken. -/
def State.setInputs (s : State) (is : List Input) : State := { s with inputs := is }
/-- `tx_log <- tx_log ++ [b]` (R205) -/
def State.logTx (s : State) (b : Byte) : State := { s with txLog := s.txLog ++ [b] }
/-- `emit WARN(kind)` (R13, R221): one more diagnostic event, nothing else. -/
def State.warn (s : State) (k : WarnKind) : State := { s with warnLog := s.warnLog ++ [k] }
/-- `return v` (R13): the byte the access puts on the bus. -/
def State.logRead (s : State) (src : ReadSource) (b : Byte) : State := { s with readLog := s.readLog ++ [⟨src, b⟩] }
/-- One free value has been drawn (log entry 5). -/
def State.draw (s : State) : State := { s with drawCount := s.drawCount + 1 }

/-! ## The queue primitives -/

/-- `try_enqueue(b)` (R181): append below capacity, else the queue is unchanged and the byte is lost. -/
def tryEnqueue (q : List Byte) (b : Byte) : List Byte × Bool :=
  if q.length < Config.QCAP then (q ++ [b], true) else (q, false)
/-- `dequeue_blocking()` (R182): the oldest byte and the rest, or nothing while the queue is empty. -/
def dequeue : List Byte → Option (Byte × List Byte)
  | [] => none
  | b :: q => some (b, q)
/-- `is_empty()` (R183). -/
def queueIsEmpty (q : List Byte) : Bool := q.isEmpty
/-- `clear()` (R184). -/
def clearQueue (_q : List Byte) : List Byte := []

/-! ## The transmit side -/

/-- `emit TX(v)` (R13, R205, R206): one datagram is handed over, recorded whether or not it fails; whether it fails is
the environment's choice (log entry 6) and only adds a diagnostic event (R222). -/
def emitTx (v : Byte) (s : State) : State :=
  { s with
    txLog := s.txLog ++ [v]
    warnLog := s.warnLog ++ (if Config.sendFails s.drawCount then [.transportSendFailure] else [])
    drawCount := s.drawCount + 1 }

/-! ## The host's turn -/

/-- A HOST-domain step takes effect only while no data-in read is stalled; while one is, the HOST has no such step, the
access is held and nothing changes (R34, R121, R262). Log entries 7 and 8. -/
def hostStep (s : State) (f : State → State) : Host.Outcome State Fault Refusal :=
  match s.hostPending with
  | .idle => .next (f s)
  | .stalledOnDataIn => .next s

/-- The four lines of `RD_DATA_IN` after the stall (R121), for the oldest byte `b` and the rest `q`. -/
def finishDataIn (b : Byte) (q : List Byte) (s : State) : State :=
  ((s.setQueue q).setInputFlags (dataReadFlags s.card.inputFlags)).logRead (.register Config.OFF_DATA_IN) b

/-- The completion of a stalled data-in read (R121): enabled exactly when a read is stalled and the queue is non-empty;
otherwise nothing happens. -/
def completeDataIn (s : State) : State :=
  match s.hostPending, dequeue s.card.receiveQueue with
  | .stalledOnDataIn, some (b, q) => (finishDataIn b q s).setPending .idle
  | .stalledOnDataIn, none => s
  | .idle, _ => s

/-- A read with no operation (R160): any byte, a fresh draw; no card state changes. -/
def readNop (off : Offset) (s : State) : Host.Outcome State Fault Refusal :=
  hostStep s fun s => (s.logRead (.register off) (Config.busByte s.drawCount)).draw

/-- A write with no operation (R161): the value is discarded. -/
def writeNop (_off : Offset) (_v : Byte) (s : State) : Host.Outcome State Fault Refusal :=
  hostStep s fun s => s

/-! ## Firmware-window memory -/

/-- The byte at offset `a` of window `w`: the listed one, else what an unlisted offset reads as (R163, R165). -/
def Memory.read (w : FwWindow) : Memory → Nat → Byte
  | [], a => w.unlisted a
  | (x, b) :: m, a => if x = a then b else Memory.read w m a

/-- Take offset `a` off the list. -/
def Memory.erase (a : Nat) : Memory → Memory
  | [] => []
  | (x, b) :: m => if x = a then Memory.erase a m else (x, b) :: Memory.erase a m

/-- List `v` at offset `a`, keeping the offsets strictly rising. -/
def Memory.insert (a : Nat) (v : Byte) : Memory → Memory
  | [] => [(a, v)]
  | (x, b) :: m =>
    if a < x then (a, v) :: (x, b) :: m
    else if a = x then (a, v) :: m
    else (x, b) :: Memory.insert a v m

/-- Populate one byte (construction only, R165). Writing what an unlisted offset reads as takes the entry off; an offset
outside the window is no byte of it and leaves the list alone. -/
def Memory.write (w : FwWindow) (m : Memory) (a : Nat) (v : Byte) : Memory :=
  if a < w.size then
    if v = w.unlisted a then Memory.erase a m else Memory.insert a v m
  else m

/-- Populate consecutive bytes from offset `a` on. -/
def Memory.populate (w : FwWindow) (a : Nat) : List Byte → Memory → Memory
  | [], m => m
  | v :: vs, m => Memory.populate w (a + 1) vs (Memory.write w m a v)

/-- The canonical form: offsets strictly rising and within the window, no entry equal to what an unlisted offset reads
as. -/
def Memory.wf (w : FwWindow) : Memory → Bool
  | [] => true
  | (x, b) :: m =>
    decide (x < w.size) && !(b == w.unlisted x) && m.all (fun c => decide (x < c.1)) && Memory.wf w m

end Sys2Proof.Machine
end

