-- ==== Sys2Proof/Machine/Arbiter.lean ====
section
/-! DEFINITION. Which agent moves next (20_memory.md section 5): the choice is data in `State.inputs`, and this file reads
it. While no read is stalled the first input is taken. While a data-in read is stalled, HOST inputs wait in order, the
LISTENER's go on, and the completion is the only HOST step enabled (R34, R121). Log entry 7. -/

namespace Sys2Proof.Machine

/-- Is the input one of the HOST domain's (R14): a register or firmware access, or RESET? A word that spells no event is
nobody's and is not held. -/
def isHostInput : Input → Bool
  | .event w =>
    match decode w with
    | .ok (.rxByte _) => false
    | .ok _ => true
    | .error _ => false
  | .completion => false
  | .receiveFailure => false
  | .access _ _ _ _ => true
  | .firmwareRead _ _ => true
  | .firmwareWrite _ _ _ => true

/-- The first input that is not the HOST's, and the inputs without it, in order. -/
def takeListener : List Input → Option (Input × List Input)
  | [] => none
  | i :: is =>
    if isHostInput i then
      match takeListener is with
      | some (j, rest) => some (j, i :: rest)
      | none => none
    else some (i, is)

/-- What happens next. -/
inductive Action where
  /-- nothing is enabled: the card waits (R263), or the bus is held (R273) -/
  | wait
  /-- the stalled data-in read completes -/
  | complete
  /-- input `i` is taken, `rest` is left -/
  | take (i : Input) (rest : List Input)
  deriving DecidableEq, Repr

/-- The arbitration. -/
def nextAction (s : State) : Action :=
  match s.hostPending, s.inputs with
  | .idle, [] => .wait
  | .idle, i :: rest => .take i rest
  | .stalledOnDataIn, is =>
    if queueIsEmpty s.card.receiveQueue then
      match takeListener is with
      | some (i, rest) => .take i rest
      | none => .wait
    else
      match is with
      | [] => .complete
      | i :: rest => if isHostInput i then .complete else .take i rest

end Sys2Proof.Machine
end

