-- ==== Sys2Proof/Machine/DataAndFlagsWrites.lean ====
section
/-! DEFINITION. The two register writes: `WR_DATA_OUT` (R140) and `WR_FLAGS_OUT` (R141). -/

namespace Sys2Proof.Machine

/-- `WR_DATA_OUT(v)` (R140): one datagram, bit 6 cleared whether or not the send succeeded. -/
def execWrDataOut (v : Byte) (s : State) : Host.Outcome State Fault Refusal :=
  hostStep s fun s => (emitTx v s).setInputFlags (dataWriteFlags s.card.inputFlags)

/-- `WR_FLAGS_OUT(v)` (R141): a plain mirror, and bit 6 from the value being written. -/
def execWrFlagsOut (v : Byte) (s : State) : Host.Outcome State Fault Refusal :=
  hostStep s fun s => (s.setOutputFlags v).setInputFlags (flagsWriteFlags s.card.inputFlags v)

end Sys2Proof.Machine
end

