-- ==== Sys2Proof/Machine/Lifecycle.lean ====
section
/-! DEFINITION. Card Lifecycle: `RESET` (R260) and `CONSTRUCT` (R264, R265). -/

namespace Sys2Proof.Machine

/-- `CardState` after reset semantics (R260): all three mutable members, `peer_endpoint` kept. -/
def resetCard (c : CardState) : CardState :=
  { c with
    outputFlags := Config.RST_OUTPUT_FLAGS
    inputFlags := Config.RST_INPUT_FLAGS
    receiveQueue := clearQueue c.receiveQueue }

/-- `RESET` (R260): a host-domain event, not taken while a data-in read is stalled (R262, D7). -/
def execReset (s : State) : Host.Outcome State Fault Refusal :=
  hostStep s fun s => { s with card := resetCard s.card }

/-- What the firmware collaborator hands over: the bytes of each window from offset 0 on (R165). -/
structure FirmwareImage where
  fwA : List Byte
  fwB : List Byte
  deriving DecidableEq, Repr

/-- Power-on construction (R264, R265) with the peer's address, the firmware image (none: `FirmwareLoadFailure`, R225)
and whether the transport opens (if not, no card exists, R226). -/
def construct (peer : PeerEndpoint) (image : Option FirmwareImage) (transportOpens : Bool) :
    Except WarnKind State :=
  if transportOpens then
    let fresh : State :=
      { card := resetCard { outputFlags := 0#8, inputFlags := 0#8, receiveQueue := [], peerEndpoint := peer }
        hostPending := .idle, fwA := [], fwB := [], inputs := [], txLog := [], warnLog := [], readLog := []
        drawCount := 0 }
    match image with
    | some img => .ok { fresh with fwA := Memory.populate .a 0 img.fwA [], fwB := Memory.populate .b 0 img.fwB [] }
    | none => .ok (fresh.warn .firmwareLoadFailure)
  else .error .socketOpenFailure

end Sys2Proof.Machine
end

