-- ==== Sys2Proof/Machine/Listener.lean ====
section
/-! DEFINITION. The LISTENER's steps: `RX_BYTE` (R201) and a receive failure (R203), and the expansion of an inbound
datagram (R102, R202). They are enabled in every state, a stalled host read among them. -/

namespace Sys2Proof.Machine

/-- `RX_BYTE(b)` (R201). -/
def execRxByte (b : Byte) (s : State) : Host.Outcome State Fault Refusal :=
  match tryEnqueue s.card.receiveQueue b with
  | (q, true) => .next (s.setQueue q)
  | (_, false) => .next (s.warn .queueFull)

/-- An inbound datagram errored (R203, R223): logged, nothing enqueued, the LISTENER goes on. -/
def receiveFailure (s : State) : State := s.warn .transportReceiveFailure

/-- `RXD b1, ..., bn` (R102, R202): one `RX_BYTE` per payload byte, in payload order. -/
def rxd (payload : List Byte) : List Input := payload.map fun b => .event (rxbWord b)

end Sys2Proof.Machine
end

