-- ==== Sys2Proof/Machine/StatusAndDataReads.lean ====
section
/-! DEFINITION. The two register reads with side effects: `RD_FLAGS_IN` (R120) and `RD_DATA_IN` (R121). -/

namespace Sys2Proof.Machine

/-- `RD_FLAGS_IN` (R120): the byte returned is the flags before the step; the mutation affects only later reads. -/
def execRdFlagsIn (s : State) : Host.Outcome State Fault Refusal :=
  hostStep s fun s =>
    (s.logRead (.register Config.OFF_FLAGS_IN) s.card.inputFlags).setInputFlags
      (statusReadFlags s.card.inputFlags (!queueIsEmpty s.card.receiveQueue))

/-- `RD_DATA_IN` (R121): with a byte queued the read completes at once; with none the HOST is stalled on it and no other
state changes. -/
def execRdDataIn (s : State) : Host.Outcome State Fault Refusal :=
  hostStep s fun s =>
    match dequeue s.card.receiveQueue with
    | some (b, q) => finishDataIn b q s
    | none => s.setPending .stalledOnDataIn

end Sys2Proof.Machine
end

