-- ==== Sys2Proof/Machine/UnmappedAccesses.lean ====
section
/-! DEFINITION. The 28 accesses of the register window to which the register map gives no operation (R160 to R162), and
reads and writes of the two firmware windows (R163 to R165). -/

namespace Sys2Proof.Machine

/-! ## Reads with no operation (R160) -/

/-- `RD_NOP` at offset `0x0` (R160). -/
def execRdNop0 (s : State) : Host.Outcome State Fault Refusal := readNop 0x0 s

/-- `RD_NOP` at offset `0x1` (R160). -/
def execRdNop1 (s : State) : Host.Outcome State Fault Refusal := readNop 0x1 s

/-- `RD_NOP` at offset `0x2` (R160). -/
def execRdNop2 (s : State) : Host.Outcome State Fault Refusal := readNop 0x2 s

/-- `RD_NOP` at offset `0x3` (R160). -/
def execRdNop3 (s : State) : Host.Outcome State Fault Refusal := readNop 0x3 s

/-- `RD_NOP` at offset `0x4` (R160). -/
def execRdNop4 (s : State) : Host.Outcome State Fault Refusal := readNop 0x4 s

/-- `RD_NOP` at offset `0x5` (R160). -/
def execRdNop5 (s : State) : Host.Outcome State Fault Refusal := readNop 0x5 s

/-- `RD_NOP` at offset `0x6` (R160). -/
def execRdNop6 (s : State) : Host.Outcome State Fault Refusal := readNop 0x6 s

/-- `RD_NOP` at offset `0x7` (R160). -/
def execRdNop7 (s : State) : Host.Outcome State Fault Refusal := readNop 0x7 s

/-- `RD_NOP` at offset `0x8` (R160). -/
def execRdNop8 (s : State) : Host.Outcome State Fault Refusal := readNop 0x8 s

/-- `RD_NOP` at offset `0x9` (R160). -/
def execRdNop9 (s : State) : Host.Outcome State Fault Refusal := readNop 0x9 s

/-- `RD_NOP` at offset `0xA` (R160). -/
def execRdNopA (s : State) : Host.Outcome State Fault Refusal := readNop 0xA s

/-- `RD_NOP` at offset `0xC` (R160). -/
def execRdNopC (s : State) : Host.Outcome State Fault Refusal := readNop 0xC s

/-- `RD_NOP` at offset `0xD` (R160). -/
def execRdNopD (s : State) : Host.Outcome State Fault Refusal := readNop 0xD s

/-- `RD_NOP` at offset `0xF` (R160). -/
def execRdNopF (s : State) : Host.Outcome State Fault Refusal := readNop 0xF s

/-! ## Writes with no operation (R161) -/

/-- `WR_NOP` at offset `0x0` (R161). -/
def execWrNop0 (d : Byte) (s : State) : Host.Outcome State Fault Refusal := writeNop 0x0 d s

/-- `WR_NOP` at offset `0x1` (R161). -/
def execWrNop1 (d : Byte) (s : State) : Host.Outcome State Fault Refusal := writeNop 0x1 d s

/-- `WR_NOP` at offset `0x2` (R161). -/
def execWrNop2 (d : Byte) (s : State) : Host.Outcome State Fault Refusal := writeNop 0x2 d s

/-- `WR_NOP` at offset `0x3` (R161). -/
def execWrNop3 (d : Byte) (s : State) : Host.Outcome State Fault Refusal := writeNop 0x3 d s

/-- `WR_NOP` at offset `0x4` (R161). -/
def execWrNop4 (d : Byte) (s : State) : Host.Outcome State Fault Refusal := writeNop 0x4 d s

/-- `WR_NOP` at offset `0x5` (R161). -/
def execWrNop5 (d : Byte) (s : State) : Host.Outcome State Fault Refusal := writeNop 0x5 d s

/-- `WR_NOP` at offset `0x6` (R161). -/
def execWrNop6 (d : Byte) (s : State) : Host.Outcome State Fault Refusal := writeNop 0x6 d s

/-- `WR_NOP` at offset `0x8` (R161). -/
def execWrNop8 (d : Byte) (s : State) : Host.Outcome State Fault Refusal := writeNop 0x8 d s

/-- `WR_NOP` at offset `0x9` (R161). -/
def execWrNop9 (d : Byte) (s : State) : Host.Outcome State Fault Refusal := writeNop 0x9 d s

/-- `WR_NOP` at offset `0xA` (R161). -/
def execWrNopA (d : Byte) (s : State) : Host.Outcome State Fault Refusal := writeNop 0xA d s

/-- `WR_NOP` at offset `0xB` (R161). -/
def execWrNopB (d : Byte) (s : State) : Host.Outcome State Fault Refusal := writeNop 0xB d s

/-- `WR_NOP` at offset `0xC` (R161). -/
def execWrNopC (d : Byte) (s : State) : Host.Outcome State Fault Refusal := writeNop 0xC d s

/-- `WR_NOP` at offset `0xE` (R161). -/
def execWrNopE (d : Byte) (s : State) : Host.Outcome State Fault Refusal := writeNop 0xE d s

/-- `WR_NOP` at offset `0xF` (R161). -/
def execWrNopF (d : Byte) (s : State) : Host.Outcome State Fault Refusal := writeNop 0xF d s

/-! ## The firmware windows -/

/-- Read of a firmware window (R163): the byte goes to the bus verbatim, no card state changes. An offset outside the
window is not an access to it and stops by name (log entry 9). It is a host access, so it waits behind a stalled read. -/
def firmwareRead (w : FwWindow) (off : Nat) (s : State) : Host.Outcome State Fault Refusal :=
  if off < w.size then
    hostStep s fun s => s.logRead (.firmware w off) (Memory.read w (s.firmware w) off)
  else .fault .outsideWindow

/-- Write to a firmware window (R164, D9): discarded. -/
def firmwareWrite (w : FwWindow) (off : Nat) (_v : Byte) (s : State) : Host.Outcome State Fault Refusal :=
  if off < w.size then hostStep s fun s => s else .fault .outsideWindow

end Sys2Proof.Machine
end

