-- ==== Sys2Proof/Machine/Dispatch.lean ====
section
/-! DEFINITION. The event's meaning, one arm per constructor of Instr. -/

namespace Sys2Proof.Machine

def exec (i : Instr) (s : State) : Host.Outcome State Fault Refusal :=
  match i with
  | .rdFlagsIn => Sys2Proof.Machine.execRdFlagsIn s
  | .rdDataIn => Sys2Proof.Machine.execRdDataIn s
  | .wrDataOut d => Sys2Proof.Machine.execWrDataOut d s
  | .wrFlagsOut d => Sys2Proof.Machine.execWrFlagsOut d s
  | .rdNop0 => Sys2Proof.Machine.execRdNop0 s
  | .rdNop1 => Sys2Proof.Machine.execRdNop1 s
  | .rdNop2 => Sys2Proof.Machine.execRdNop2 s
  | .rdNop3 => Sys2Proof.Machine.execRdNop3 s
  | .rdNop4 => Sys2Proof.Machine.execRdNop4 s
  | .rdNop5 => Sys2Proof.Machine.execRdNop5 s
  | .rdNop6 => Sys2Proof.Machine.execRdNop6 s
  | .rdNop7 => Sys2Proof.Machine.execRdNop7 s
  | .rdNop8 => Sys2Proof.Machine.execRdNop8 s
  | .rdNop9 => Sys2Proof.Machine.execRdNop9 s
  | .rdNopA => Sys2Proof.Machine.execRdNopA s
  | .rdNopC => Sys2Proof.Machine.execRdNopC s
  | .rdNopD => Sys2Proof.Machine.execRdNopD s
  | .rdNopF => Sys2Proof.Machine.execRdNopF s
  | .wrNop0 d => Sys2Proof.Machine.execWrNop0 d s
  | .wrNop1 d => Sys2Proof.Machine.execWrNop1 d s
  | .wrNop2 d => Sys2Proof.Machine.execWrNop2 d s
  | .wrNop3 d => Sys2Proof.Machine.execWrNop3 d s
  | .wrNop4 d => Sys2Proof.Machine.execWrNop4 d s
  | .wrNop5 d => Sys2Proof.Machine.execWrNop5 d s
  | .wrNop6 d => Sys2Proof.Machine.execWrNop6 d s
  | .wrNop8 d => Sys2Proof.Machine.execWrNop8 d s
  | .wrNop9 d => Sys2Proof.Machine.execWrNop9 d s
  | .wrNopA d => Sys2Proof.Machine.execWrNopA d s
  | .wrNopB d => Sys2Proof.Machine.execWrNopB d s
  | .wrNopC d => Sys2Proof.Machine.execWrNopC d s
  | .wrNopE d => Sys2Proof.Machine.execWrNopE d s
  | .wrNopF d => Sys2Proof.Machine.execWrNopF d s
  | .rxByte d => Sys2Proof.Machine.execRxByte d s
  | .reset => Sys2Proof.Machine.execReset s

end Sys2Proof.Machine
end

