-- ==== Sys2Proof/Machine/RunInput.lean ====
section
/-! DEFINITION. What taking one input does: decode an event word and run it, or run one of the inputs that have no event
word. -/

namespace Sys2Proof.Machine

/-- Run an event word (R98): a refused word spells no event and no step exists for it. -/
def runWord (w : Word) (s : State) : Host.Outcome State Fault Refusal :=
  match decode w with
  | .ok i => exec i s
  | .error e => .refused (.noSuchEvent e)

/-- Run an access tuple (R90): another width than 8 bits is refused and never split (R57); an offset outside the window
never reaches the card (R53); else the dispatcher selects the step (R61, R91). -/
def runAccess (bits off : Nat) (k : AccessKind) (v : Byte) (s : State) : Host.Outcome State Fault Refusal :=
  if bits = 8 then
    if inRegisterWindow off then exec (dispatch (offsetOperand off) k v) s else .fault .outsideWindow
  else .refused (.accessWidth bits)

/-- Run one input. -/
def runInput (i : Input) (s : State) : Host.Outcome State Fault Refusal :=
  match i with
  | .event w => runWord w s
  | .completion => .next (completeDataIn s)
  | .receiveFailure => .next (receiveFailure s)
  | .access bits off k v => runAccess bits off k v s
  | .firmwareRead w off => firmwareRead w off s
  | .firmwareWrite w off v => firmwareWrite w off v s

end Sys2Proof.Machine
end

