-- ==== Sys2Proof/Machine/Step.lean ====
section
/-! DEFINITION. One step of the machine: one atomic step of one agent (R14, R66). -/

namespace Sys2Proof.Machine

/-- One step: the arbiter says which agent moves; the input it takes is gone from the inputs before it runs. When nothing
is enabled the state stays as it is (R263; a held bus, R273). -/
def step (s : State) : Host.Outcome State Fault Refusal :=
  match nextAction s with
  | .wait => .next s
  | .complete => .next (completeDataIn s)
  | .take i rest => runInput i (s.setInputs rest)

/-- `s` with a table word put where the next step takes its input from: at the head of the inputs (log entry 3). -/
def State.withFetchWord (s : State) (nbits w : Nat) : State :=
  { s with inputs := .event (tableWord nbits w) :: s.inputs }

end Sys2Proof.Machine
end

