-- ==== Sys2Proof/WellFormed.lean ====
section
/-! DEFINITION. Which terms are well formed. An `Instr` always is: its one operand is a byte by type (R92) and its offset
is in the constructor's name. What can be ill formed is an input of the environment. -/

namespace Sys2Proof

/-- Every event is well formed. -/
def Instr.wellFormed (_ : Instr) : Bool := true

/-- An input the card gives a meaning to: a word that spells an event (R98), an 8-bit access (R57) within the register
window (R53), a firmware offset within its window (R163). -/
def Machine.Input.wellFormed : Machine.Input → Bool
  | .event w => (decode w).isOk
  | .completion => true
  | .receiveFailure => true
  | .access bits off _ _ => bits == 8 && decide (off < 2 ^ Config.WIN_BITS)
  | .firmwareRead w off => decide (off < w.size)
  | .firmwareWrite w off _ => decide (off < w.size)

end Sys2Proof
end

