-- ==== Sys2Proof/Safety.lean ====
section
/-! DEFINITION. What a good state is (R27, R38, R39, R121 (e), R165), what a run that never stops needs of its inputs
(R238), and the observations the claims speak of. -/

namespace Sys2Proof.Machine

/-- The invariants the spec derives, and the canonical form of the firmware memory. -/
structure Inv (s : State) : Prop where
  /-- R38: bits 5:0 of `input_flags` read as 1 -/
  lowFlags : s.card.inputFlags &&& 0x3F#8 = 0x3F#8
  /-- R39: bit 7 clear means a byte is queued -/
  available : receiveRequest s.card.inputFlags = false → s.card.receiveQueue ≠ []
  /-- R27: the queue never holds more than `QCAP` bytes -/
  bounded : s.card.receiveQueue.length ≤ Config.QCAP
  /-- R121 (e): while a read is stalled bit 7 is 1 -/
  stalled : s.hostPending = .stalledOnDataIn → receiveRequest s.card.inputFlags = true
  /-- R165: the firmware windows are held in canonical form -/
  fwA : Memory.wf .a s.fwA = true
  fwB : Memory.wf .b s.fwB = true

/-- `n` steps of the machine, stopping at the first fault or refusal. -/
def run (n : Nat) (s : State) : Host.Outcome State Fault Refusal := Sys2Proof.core.run n s

/-- Every input has a meaning (R238: nothing refused). -/
def InputsWellFormed (s : State) : Prop := ∀ i ∈ s.inputs, i.wellFormed = true

/-- The bytes data-in reads have returned, oldest first. -/
def delivered (s : State) : List Byte :=
  (s.readLog.filter fun r => decide (r.source = .register Config.OFF_DATA_IN)).map ReadResult.data

/-- The inbound byte an input carries, if it is an `RX_BYTE` word. -/
def inboundByte : Input → Option Byte
  | .event w =>
    match decode w with
    | .ok (.rxByte b) => some b
    | .ok _ => none
    | .error _ => none
  | .completion => none
  | .receiveFailure => none
  | .access _ _ _ _ => none
  | .firmwareRead _ _ => none
  | .firmwareWrite _ _ _ => none

/-- The inbound bytes still in flight, in arrival order (R35). -/
def inboundBytes (is : List Input) : List Byte := is.filterMap inboundByte

/-- The byte an input writes to data-out, if it is a write of data-out (as an event word or as an access tuple). -/
def writtenByte : Input → Option Byte
  | .event w =>
    match decode w with
    | .ok (.wrDataOut v) => some v
    | .ok _ => none
    | .error _ => none
  | .completion => none
  | .receiveFailure => none
  | .access bits off k v => if bits = 8 ∧ off = Config.OFF_DATA_OUT.toNat ∧ k = .write then some v else none
  | .firmwareRead _ _ => none
  | .firmwareWrite _ _ _ => none

/-- The bytes still to be written to data-out, in the order the HOST issues the writes. -/
def writtenBytes (is : List Input) : List Byte := is.filterMap writtenByte

/-- Is the input the RESET event? -/
def isResetInput (i : Input) : Bool := decide (i = .event rstWord)

end Sys2Proof.Machine
end

