-- ==== Sys2Proof/Certificates/Slice0/Obligations.lean ====
section
/-! DEFINITION. The statements for the provers. Each docstring names the rule of spec/ it formalises; where a clause rests
on a choice of the spec (its decisions D1 to D18, its `[derived]` marks) or of the model, it says so. A HOST access is
stated for an idle host because "accesses are serialized by the host bus and never overlap each other" (R63). -/

open Sys2Proof Sys2Proof.Machine

/-! ## Encoding -/

/-- The decoder vectors of 95_test_vectors.md section 2.9: words written out from R93 to R98 (the event word is the
spec's own, decision D5), the refused ones among them. -/
def Obligations.EventWordsDecodeAsWritten : Prop :=
  decode 0x0B00#16 = .ok .rdFlagsIn ∧ decode 0x0E00#16 = .ok .rdDataIn ∧
  decode 0x1D41#16 = .ok (.wrDataOut 0x41#8) ∧ decode 0x1700#16 = .ok (.wrFlagsOut 0x00#8) ∧
  decode 0x0000#16 = .ok .rdNop0 ∧ decode 0x0700#16 = .ok .rdNop7 ∧
  decode 0x1B12#16 = .ok (.wrNopB 0x12#8) ∧ decode 0x40FF#16 = .ok (.rxByte 0xFF#8) ∧
  decode 0x8000#16 = .ok .reset ∧
  decode 0x0B01#16 = .error .readCarriesData ∧ decode 0x0E80#16 = .error .readCarriesData ∧
  decode 0x2000#16 = .error .reservedBitSet ∧ decode 0x3D41#16 = .error .reservedBitSet ∧
  decode 0x4110#16 = .error .strayBitsInRxb ∧ decode 0x5010#16 = .error .strayBitsInRxb ∧
  decode 0x8001#16 = .error .strayBitsInRst ∧ decode 0x9000#16 = .error .strayBitsInRst ∧
  decode 0xC000#16 = .error .reservedClass

/-- R98 (decision D5): `decode(encode(e)) = e` for every event. -/
def Obligations.DecodeOfEncodeIsTheEvent : Prop :=
  ∀ i : Instr, decode (encode i) = .ok i

/-- R98 (decision D5): `encode(decode(w)) = w` for every word not refused, so no word has two readings and none is
accepted with stray bits. -/
def Obligations.EncodeOfDecodeIsTheWord : Prop :=
  ∀ (w : Word) (i : Instr), decode w = .ok i → encode i = w

/-- The decoder accepts exactly the words the rows of spec/opcode_table.json cover, each as the row's event
(30_encoding.md, decision D5). -/
def Obligations.DecoderAgreesWithOpcodeTable : Prop :=
  (∀ (w : Word) (i : Instr), decode w = .ok i →
    ∃ r ∈ opcodeTable, r.mnemonic = i.mnemonic ∧ r.covers w = true) ∧
  (∀ (w : Word) (r : OpcodeRow), r ∈ opcodeTable → r.covers w = true →
    ∃ i, decode w = .ok i ∧ i.mnemonic = r.mnemonic)

/-- R91, the selecting values of the register map, for every offset, kind and value; the row with no operation is
named by its event word (decision D5). -/
def Obligations.DispatchFollowsRegisterMap : Prop :=
  ∀ (off : Offset) (v : Byte),
    dispatch 0xB#4 .read v = .rdFlagsIn ∧ dispatch 0xE#4 .read v = .rdDataIn ∧
    dispatch 0xD#4 .write v = .wrDataOut v ∧ dispatch 0x7#4 .write v = .wrFlagsOut v ∧
    (off ≠ 0xB#4 → off ≠ 0xE#4 →
      ∃ r ∈ readNopRows, r.mnemonic = (dispatch off .read v).mnemonic ∧ r.pattern = encode (dispatch off .read v) ∧
        r.pattern.toNat = 0x100 * off.toNat) ∧
    (off ≠ 0x7#4 → off ≠ 0xD#4 →
      ∃ r ∈ writeNopRows, r.mnemonic = (dispatch off .write v).mnemonic ∧
        r.covers (encode (dispatch off .write v)) = true ∧ r.pattern.toNat = 0x1000 + 0x100 * off.toNat)

/-! ## The step -/

/-- A step runs the decoded event, and nothing else but taking the word off the inputs: any event on an idle host, an
inbound byte on a stalled one too. The interleaving is the spec's decision D1 and D12; how it is held is the model's
(log entries 3 and 7). -/
def Obligations.StepRunsTheDecodedEvent : Prop :=
  (∀ (s : State) (w : Word) (rest : List Input) (i : Instr), s.hostPending = .idle → s.inputs = .event w :: rest →
    decode w = .ok i → step s = exec i { s with inputs := rest }) ∧
  (∀ (s : State) (w : Word) (rest : List Input) (b : Byte), s.inputs = .event w :: rest →
    decode w = .ok (.rxByte b) → step s = exec (.rxByte b) { s with inputs := rest }) ∧
  (∀ (s : State) (nbits w : Nat) (i : Instr), s.hostPending = .idle → decodeTableWord nbits w = some i →
    step (s.withFetchWord nbits w) = exec i s)

/-- A word that spells no event is refused by the decoder's reason (R98, R99, R238; decision D5). That it is nobody's
input and so is not held while a read is stalled is the model's choice (log entry 10). -/
def Obligations.StepRefusesWordsThatSpellNoEvent : Prop :=
  ∀ (s : State) (w : Word) (rest : List Input) (e : DecodeError), s.inputs = .event w :: rest →
    decode w = .error e → step s = .refused (.noSuchEvent e)

/-- R90, R94 (decision D5): a byte access given as the source's tuple does what its event word does, in every state.
-/
def Obligations.AccessTupleRunsAsItsEventWord : Prop :=
  ∀ (s : State) (off : Offset) (v : Byte),
    runInput (.access 8 off.toNat .read v) s = runInput (.event (BitVec.ofNat 16 (0x100 * off.toNat))) s ∧
    runInput (.access 8 off.toNat .write v) s =
      runInput (.event (BitVec.ofNat 16 (0x1000 + 0x100 * off.toNat + v.toNat))) s

/-- R57 (decision D10): an access of another width than 8 bits is refused, never split. R53 (decision D2), R163: an
offset in no window stops by name; that it is a fault is the model's choice (log entry 9). -/
def Obligations.OnlyByteAccessesWithinAWindow : Prop :=
  (∀ (s : State) (bits off : Nat) (k : AccessKind) (v : Byte), bits ≠ 8 →
    runInput (.access bits off k v) s = .refused (.accessWidth bits)) ∧
  (∀ (s : State) (off : Nat) (k : AccessKind) (v : Byte), 16 ≤ off →
    runInput (.access 8 off k v) s = .fault .outsideWindow) ∧
  (∀ (s : State) (off : Nat) (v : Byte), 256 ≤ off →
    runInput (.firmwareRead .a off) s = .fault .outsideWindow ∧
    runInput (.firmwareWrite .a off v) s = .fault .outsideWindow) ∧
  (∀ (s : State) (off : Nat) (v : Byte), 1792 ≤ off →
    runInput (.firmwareRead .b off) s = .fault .outsideWindow ∧
    runInput (.firmwareWrite .b off v) s = .fault .outsideWindow)

/-- R263: "After reset the card does nothing until an event arrives" (derived by the spec): an idle card with nothing
in flight stays as it is. -/
def Obligations.IdleCardWaitsForAnEvent : Prop :=
  ∀ (n : Nat) (s : State), s.hostPending = .idle → s.inputs = [] → run n s = .next s

/-- R66, R63 (decisions D1, D12): a step takes at most one input and leaves the others as they stand; a HOST input
is taken only as the first of all, any other only past HOST inputs that wait. So each agent's inputs are taken in
their own order. That an input is one entry of one list, and that completion markers, receive failures and words
that spell no event count as the others, is the model's choice (log entries 3, 7 and 10). -/
def Obligations.EachAgentsInputsAreTakenInOrder : Prop :=
  ∀ (s t : State), step s = .next t →
    (t.inputs = s.inputs ∨
      ∃ pre i post, s.inputs = pre ++ i :: post ∧ t.inputs = pre ++ post ∧
        ∀ j ∈ pre, isHostInput j = true ∧ isHostInput i = false) ∧
    ∃ h l : Nat, h + l ≤ 1 ∧
      t.inputs.filter isHostInput = (s.inputs.filter isHostInput).drop h ∧
      t.inputs.filter (fun i => !isHostInput i) = (s.inputs.filter (fun i => !isHostInput i)).drop l

/-! ## The stalled data-in read -/

/-- R34, R121, R262 (derived; decision D7 for RESET): while a data-in read is stalled no HOST event has any effect,
and on an empty queue the whole machine stands still unless the LISTENER has something. -/
def Obligations.HostIsHeldWhileAReadIsStalled : Prop :=
  (∀ (s : State) (i : Instr), s.hostPending = .stalledOnDataIn → (∀ b, i ≠ .rxByte b) → exec i s = .next s) ∧
  (∀ (s : State), s.hostPending = .stalledOnDataIn → s.card.receiveQueue = [] →
    (∀ i ∈ s.inputs, isHostInput i = true) → step s = .next s)

/-- R121, R281 (decision D4, D15): with a byte queued, the completion is the only HOST step enabled: it happens before
any further HOST input is taken, and at the point the environment names for it. -/
def Obligations.StalledReadCompletesFirst : Prop :=
  ∀ (s : State) (b : Byte) (q : List Byte), s.hostPending = .stalledOnDataIn → s.card.receiveQueue = b :: q →
    ((∀ i rest, s.inputs = i :: rest → isHostInput i = true) →
      step s = .next
        { s with
          card := { s.card with receiveQueue := q, inputFlags := s.card.inputFlags ||| 0x80#8 }
          hostPending := .idle
          readLog := s.readLog ++ [⟨.register 0xE#4, b⟩] }) ∧
    (∀ rest, s.inputs = .completion :: rest →
      step s = .next
        { s with
          card := { s.card with receiveQueue := q, inputFlags := s.card.inputFlags ||| 0x80#8 }
          hostPending := .idle
          inputs := rest
          readLog := s.readLog ++ [⟨.register 0xE#4, b⟩] })

/-- R121, R201 (d): one inbound byte lifts the stall; two steps later the read has returned it. -/
def Obligations.InboundByteLiftsTheStall : Prop :=
  ∀ (s : State) (b : Byte) (pre post : List Input), s.hostPending = .stalledOnDataIn → s.card.receiveQueue = [] →
    s.inputs = pre ++ .event (rxbWord b) :: post → (∀ i ∈ pre ++ post, isHostInput i = true) →
    run 2 s = .next
      { s with
        card := { s.card with inputFlags := s.card.inputFlags ||| 0x80#8 }
        hostPending := .idle
        inputs := pre ++ post
        readLog := s.readLog ++ [⟨.register 0xE#4, b⟩] }

/-- R273, R239: a data read on an empty queue holds the bus without bound: with no byte to come it is stalled after
one step and after every number of steps, and nothing else has changed. -/
def Obligations.DataReadOnEmptyQueueHangsForEver : Prop :=
  ∀ (n : Nat) (s : State) (rest : List Input), s.hostPending = .idle → s.card.receiveQueue = [] →
    s.inputs = .event 0x0E00#16 :: rest → (∀ i ∈ rest, isHostInput i = true) →
    run (n + 1) s = .next { s with hostPending := .stalledOnDataIn, inputs := rest }

/-! ## The events -/

/-- R120 whole: encoding (the event word is the spec's serialisation, decision D5), returned byte, both mutations as
the rule's one expression, and that nothing else changes. -/
def Obligations.StatusReadEffect : Prop :=
  encode .rdFlagsIn = 0x0B00#16 ∧ (∀ v, dispatch 0xB#4 .read v = .rdFlagsIn) ∧
  ∀ (s : State), s.hostPending = .idle →
    exec .rdFlagsIn s = .next
      { s with
        card := { s.card with
          inputFlags := (s.card.inputFlags &&& (if 0 < s.card.receiveQueue.length then 0x7F#8 else 0xFF#8)) ^^^ 0x40#8 }
        readLog := s.readLog ++ [⟨.register 0xB#4, s.card.inputFlags⟩] }

/-- R121 whole (it takes the stall by decision D4; the event word is decision D5; that a HOST event meanwhile is
held is log entry 8): encoding; with a byte queued the read completes at once; on an empty queue the HOST is stalled
and no other state changes; the completion does what the read would have done; nothing else changes. -/
def Obligations.DataReadEffect : Prop :=
  encode .rdDataIn = 0x0E00#16 ∧ (∀ v, dispatch 0xE#4 .read v = .rdDataIn) ∧
  (∀ (s : State) (b : Byte) (q : List Byte), s.hostPending = .idle → s.card.receiveQueue = b :: q →
    exec .rdDataIn s = .next
      { s with
        card := { s.card with receiveQueue := q, inputFlags := s.card.inputFlags ||| 0x80#8 }
        readLog := s.readLog ++ [⟨.register 0xE#4, b⟩] }) ∧
  (∀ (s : State), s.hostPending = .idle → s.card.receiveQueue = [] →
    exec .rdDataIn s = .next { s with hostPending := .stalledOnDataIn }) ∧
  (∀ (s : State) (b : Byte) (q : List Byte), s.hostPending = .stalledOnDataIn → s.card.receiveQueue = b :: q →
    completeDataIn s =
      { s with
        card := { s.card with receiveQueue := q, inputFlags := s.card.inputFlags ||| 0x80#8 }
        hostPending := .idle
        readLog := s.readLog ++ [⟨.register 0xE#4, b⟩] }) ∧
  (∀ (s : State), s.hostPending = .stalledOnDataIn → s.card.receiveQueue = [] → completeDataIn s = s) ∧
  (∀ (s : State) (i : Instr), s.hostPending = .stalledOnDataIn → (∀ b, i ≠ .rxByte b) → exec i s = .next s)

/-- R140 whole: encoding (event word: decision D5); exactly one single-byte datagram; bit 6 cleared whether or not
the send fails; a failure (a free value, log entry 6: the statement holds for every value of it) adds one diagnostic
event; nothing else changes. -/
def Obligations.DataWriteEffect : Prop :=
  ∀ (v : Byte), (encode (.wrDataOut v)).toNat = 0x1D00 + v.toNat ∧ dispatch 0xD#4 .write v = .wrDataOut v ∧
  ∀ (s : State), s.hostPending = .idle →
    exec (.wrDataOut v) s = .next
      { s with
        card := { s.card with inputFlags := s.card.inputFlags &&& 0xBF#8 }
        txLog := s.txLog ++ [v]
        warnLog := s.warnLog ++ (if Config.sendFails s.drawCount then [.transportSendFailure] else [])
        drawCount := s.drawCount + 1 }

/-- R141 whole: encoding (event word: decision D5); all 8 bits stored; bit 6 of `input_flags` the complement of bit
1 of the value being written; nothing else changes. -/
def Obligations.FlagsWriteEffect : Prop :=
  ∀ (v : Byte), (encode (.wrFlagsOut v)).toNat = 0x1700 + v.toNat ∧ dispatch 0x7#4 .write v = .wrFlagsOut v ∧
  ∀ (s : State), s.hostPending = .idle →
    exec (.wrFlagsOut v) s = .next
      { s with
        card := { s.card with
          outputFlags := v
          inputFlags := (s.card.inputFlags &&& 0xBF#8) ||| (if v.getLsbD 1 = false then 0x40#8 else 0x00#8) } }

/-- R160, R162: each of the 14 reads with no operation completes, puts a byte on the bus and changes no card state.
That byte is any value, a fresh draw at every read (decision D3, log entry 5): the statement holds for every value
of it. -/
def Obligations.ReadNopEffect : Prop :=
  ∀ p ∈ ([(.rdNop0, 0x0#4), (.rdNop1, 0x1#4), (.rdNop2, 0x2#4), (.rdNop3, 0x3#4), (.rdNop4, 0x4#4),
        (.rdNop5, 0x5#4), (.rdNop6, 0x6#4), (.rdNop7, 0x7#4), (.rdNop8, 0x8#4), (.rdNop9, 0x9#4),
        (.rdNopA, 0xA#4), (.rdNopC, 0xC#4), (.rdNopD, 0xD#4), (.rdNopF, 0xF#4)] : List (Instr × Offset)),
    (encode p.1).toNat = 0x100 * p.2.toNat ∧ (∀ v, dispatch p.2 .read v = p.1) ∧
    ∀ (s : State), s.hostPending = .idle →
      exec p.1 s = .next
        { s with
          readLog := s.readLog ++ [⟨.register p.2, Config.busByte s.drawCount⟩]
          drawCount := s.drawCount + 1 }

/-- R161, R162: encoding (event word: decision D5); each of the 14 writes with no operation (16 offsets: decision
D2) completes and changes nothing at all. That it changes no state is the spec's inference (decision D3, U2; log
entry 14). -/
def Obligations.WriteNopEffect : Prop :=
  ∀ (v : Byte), ∀ p ∈ ([(.wrNop0 v, 0x0#4), (.wrNop1 v, 0x1#4), (.wrNop2 v, 0x2#4), (.wrNop3 v, 0x3#4), (.wrNop4 v, 0x4#4),
        (.wrNop5 v, 0x5#4), (.wrNop6 v, 0x6#4), (.wrNop8 v, 0x8#4), (.wrNop9 v, 0x9#4), (.wrNopA v, 0xA#4),
        (.wrNopB v, 0xB#4), (.wrNopC v, 0xC#4), (.wrNopE v, 0xE#4), (.wrNopF v, 0xF#4)] : List (Instr × Offset)),
    (encode p.1).toNat = 0x1000 + 0x100 * p.2.toNat + v.toNat ∧ dispatch p.2 .write v = p.1 ∧
    ∀ (s : State), s.hostPending = .idle → exec p.1 s = .next s

/-- R201 whole: encoding (event word: decision D5); in every state, a stalled host included, the byte is kept below
512 queued bytes and dropped with one diagnostic event otherwise; no flag and nothing else changes. -/
def Obligations.InboundByteEffect : Prop :=
  ∀ (b : Byte), (encode (.rxByte b)).toNat = 0x4000 + b.toNat ∧
  ∀ (s : State),
    (s.card.receiveQueue.length < 512 →
      exec (.rxByte b) s = .next { s with card := { s.card with receiveQueue := s.card.receiveQueue ++ [b] } }) ∧
    (512 ≤ s.card.receiveQueue.length →
      exec (.rxByte b) s = .next { s with warnLog := s.warnLog ++ [.queueFull] })

/-- R260 whole: encoding (event word: decision D5); the three mutable members of `CardState` at their reset values
whatever they were, and nothing else: not the peer, the firmware windows, the histories, nor the bytes in flight
(R275). RESET is serialised with the HOST's accesses (R262), hence the idle host. -/
def Obligations.ResetEventEffect : Prop :=
  encode .reset = 0x8000#16 ∧
  ∀ (s : State), s.hostPending = .idle →
    exec .reset s = .next
      { s with
        card :=
          { outputFlags := 0xFF#8, inputFlags := 0xBF#8, receiveQueue := []
            peerEndpoint := s.card.peerEndpoint } }

/-- R203, R223 (decision D14): a datagram that errored is logged and nothing else happens, a stalled host included. -/
def Obligations.ReceiveFailureEffect : Prop :=
  ∀ (s : State) (rest : List Input), s.inputs = .receiveFailure :: rest →
    step s = .next { s with inputs := rest, warnLog := s.warnLog ++ [.transportReceiveFailure] }

/-- R163, R164 (decision D9 for the write): a read of a firmware window returns its byte and changes no card state; a
write is discarded. -/
def Obligations.FirmwareAccessEffect : Prop :=
  ∀ (s : State) (off : Nat) (v : Byte), s.hostPending = .idle →
    (off < 256 →
      runInput (.firmwareRead .a off) s =
        .next { s with readLog := s.readLog ++ [⟨.firmware .a off, Memory.read .a s.fwA off⟩] } ∧
      runInput (.firmwareWrite .a off v) s = .next s) ∧
    (off < 1792 →
      runInput (.firmwareRead .b off) s =
        .next { s with readLog := s.readLog ++ [⟨.firmware .b off, Memory.read .b s.fwB off⟩] } ∧
      runInput (.firmwareWrite .b off v) s = .next s)

/-! ## Who may change what -/

/-- R25, with RESET as its last sentence says: over every step from every state, bit 7 of `input_flags` is cleared
only by a status read that observes a non-empty queue, and set only by a data read that dequeues the oldest byte, or
by RESET. -/
def Obligations.ReceiveRequestChangesOnlyAsStated : Prop :=
  ∀ (s t : State), step s = .next t → t.card.inputFlags.getLsbD 7 ≠ s.card.inputFlags.getLsbD 7 →
    (t.card.inputFlags.getLsbD 7 = false ∧ s.card.receiveQueue ≠ [] ∧ t.card.receiveQueue = s.card.receiveQueue ∧
      t.readLog = s.readLog ++ [⟨.register 0xB#4, s.card.inputFlags⟩]) ∨
    (t.card.inputFlags.getLsbD 7 = true ∧ ∃ b, s.card.receiveQueue = b :: t.card.receiveQueue ∧
      t.readLog = s.readLog ++ [⟨.register 0xE#4, b⟩]) ∨
    (t.card.inputFlags = 0xBF#8 ∧ t.card.outputFlags = 0xFF#8 ∧ t.card.receiveQueue = [] ∧ t.readLog = s.readLog)

/-- R26, with RESET as its last sentence says: bit 6 of `input_flags` is mutated by exactly three register operations,
each as stated, and by RESET; a completed stalled read leaves it. -/
def Obligations.SendConfirmChangesOnlyAsStated : Prop :=
  (∀ (i : Instr) (s t : State), exec i s = .next t →
    t.card.inputFlags.getLsbD 6 ≠ s.card.inputFlags.getLsbD 6 →
      i = .rdFlagsIn ∨ (∃ v, i = .wrDataOut v) ∨ (∃ v, i = .wrFlagsOut v) ∨ i = .reset) ∧
  (∀ (s : State), (completeDataIn s).card.inputFlags.getLsbD 6 = s.card.inputFlags.getLsbD 6) ∧
  (∀ (s : State) (v : Byte), s.hostPending = .idle →
    (∃ t, exec .rdFlagsIn s = .next t ∧
      t.card.inputFlags.getLsbD 6 = !s.card.inputFlags.getLsbD 6) ∧
    (∃ t, exec (.wrDataOut v) s = .next t ∧ t.card.inputFlags.getLsbD 6 = false) ∧
    (∃ t, exec (.wrFlagsOut v) s = .next t ∧
      (t.card.inputFlags.getLsbD 6 = true ↔ v.getLsbD 1 = false)) ∧
    (∃ t, exec .reset s = .next t ∧ t.card.inputFlags.getLsbD 6 = false))

/-- R20's column "Written by" for `output_flags`, and R205, R204: only a flags write and RESET change
`output_flags`; only a data write sends, one byte each time, and it sends the byte written. -/
def Obligations.OutputFlagsAndTransmitHaveOneWriter : Prop :=
  ∀ (i : Instr) (s t : State), exec i s = .next t →
    (t.card.outputFlags ≠ s.card.outputFlags →
      i = .wrFlagsOut t.card.outputFlags ∨ (i = .reset ∧ t.card.outputFlags = 0xFF#8)) ∧
    (t.txLog ≠ s.txLog → ∃ v, i = .wrDataOut v ∧ t.txLog = s.txLog ++ [v])

/-- R27: the queue changes only by `RX_BYTE` at its newest end while it holds fewer than 512 bytes, by `RD_DATA_IN`
at its oldest end (at once or at the completion of a stalled read), and by RESET; nothing reorders, duplicates or
alters a queued byte; its length stays at most 512. -/
def Obligations.QueueChangesOnlyAtItsEnds : Prop :=
  (∀ (i : Instr) (s t : State), exec i s = .next t →
    t.card.receiveQueue = s.card.receiveQueue ∨
    (∃ b, i = .rxByte b ∧ s.card.receiveQueue.length < 512 ∧
      t.card.receiveQueue = s.card.receiveQueue ++ [b]) ∨
    (∃ b, i = .rdDataIn ∧ s.card.receiveQueue = b :: t.card.receiveQueue ∧
      t.readLog = s.readLog ++ [⟨.register 0xE#4, b⟩]) ∨
    (i = .reset ∧ t.card.receiveQueue = [])) ∧
  (∀ (s : State), (completeDataIn s).card.receiveQueue = s.card.receiveQueue ∨
    ∃ b, s.card.receiveQueue = b :: (completeDataIn s).card.receiveQueue ∧
      (completeDataIn s).readLog = s.readLog ++ [⟨.register 0xE#4, b⟩]) ∧
  (∀ (s t : State), step s = .next t → s.card.receiveQueue.length ≤ 512 → t.card.receiveQueue.length ≤ 512) ∧
  State.reset.card.receiveQueue.length ≤ 512

/-- R221, R222, R224: an event raises at most one diagnostic event, of its own kind, and only a data write and a
dropped byte raise any. -/
def Obligations.DiagnosticEventsHaveTheirCauses : Prop :=
  ∀ (i : Instr) (s t : State), exec i s = .next t →
    t.warnLog = s.warnLog ∨
    (∃ v, i = .wrDataOut v ∧ t.warnLog = s.warnLog ++ [.transportSendFailure]) ∨
    (∃ b, i = .rxByte b ∧ 512 ≤ s.card.receiveQueue.length ∧ t.card = s.card ∧
      t.warnLog = s.warnLog ++ [.queueFull])

/-- R208, R165, R75, R36: no step changes the peer endpoint or the firmware windows, and no step takes anything off a
history. -/
def Obligations.StepsKeepWhatConstructionFixed : Prop :=
  ∀ (s t : State), step s = .next t →
    t.card.peerEndpoint = s.card.peerEndpoint ∧ t.fwA = s.fwA ∧ t.fwB = s.fwB ∧
    s.txLog <+: t.txLog ∧ s.warnLog <+: t.warnLog ∧ s.readLog <+: t.readLog

/-! ## Invariants -/

/-- R37: the reset values, and that they meet the invariant. -/
def Obligations.ResetStateMeetsTheInvariant : Prop :=
  State.reset.card.outputFlags = 0xFF#8 ∧ State.reset.card.inputFlags = 0xBF#8 ∧
  State.reset.card.receiveQueue = [] ∧ State.reset.hostPending = .idle ∧
  State.reset.txLog = [] ∧ State.reset.warnLog = [] ∧ Inv State.reset

/-- R27, R38, R39, R121 (e) and the canonical form of the firmware memory (R38 and R39 are the spec's own
derivations): every step from a state that meets the invariant keeps it. -/
def Obligations.StepKeepsTheInvariant : Prop :=
  ∀ (s t : State), Inv s → step s = .next t → Inv t

/-- R38 (the spec's derivation): under the invariant `input_flags`, and so the byte a status read returns, is one of
four values. -/
def Obligations.StatusReadReturnsOneOfFourBytes : Prop :=
  ∀ (s : State), Inv s → s.hostPending = .idle →
    ∃ (f : Byte) (t : State), f ∈ [0x3F#8, 0x7F#8, 0xBF#8, 0xFF#8] ∧ exec .rdFlagsIn s = .next t ∧
      t.readLog = s.readLog ++ [⟨.register 0xB#4, f⟩] ∧ t.card.inputFlags ∈ [0x3F#8, 0x7F#8, 0xBF#8, 0xFF#8]

/-- R271 (the spec's derivation from R39): while bit 7 is 0 a data-in read completes at once. -/
def Obligations.DataReadNeverStallsAfterAvailable : Prop :=
  ∀ (s : State), Inv s → s.hostPending = .idle → s.card.inputFlags.getLsbD 7 = false →
    ∃ b q t, s.card.receiveQueue = b :: q ∧ exec .rdDataIn s = .next t ∧ t.hostPending = .idle ∧
      t.card.receiveQueue = q ∧ t.readLog = s.readLog ++ [⟨.register 0xE#4, b⟩]

/-! ## Whole runs -/

/-- R220, R238, R230: no step faults and none is refused while the environment offers only events the spec gives a
meaning, for ever. -/
def Obligations.MeaningfulInputsNeverStopTheCard : Prop :=
  ∀ (n : Nat) (s : State), InputsWellFormed s → ∃ t, run n s = .next t ∧ InputsWellFormed t

/-- R41 (the spec's derivation): `output_flags` cannot be observed. Two states that differ only in it run alike for
ever, with the same bytes returned and sent, and differ only in it afterwards. -/
def Obligations.OutputFlagsAreNeverObserved : Prop :=
  ∀ (n : Nat) (s : State) (v : Byte),
    (∃ t v', run n s = .next t ∧
      run n { s with card := { s.card with outputFlags := v } } =
        .next { t with card := { t.card with outputFlags := v' } }) ∨
    (∃ r, run n s = .fault r ∧ run n { s with card := { s.card with outputFlags := v } } = .fault r) ∨
    (∃ r, run n s = .refused r ∧ run n { s with card := { s.card with outputFlags := v } } = .refused r)

/-- R67, R186 (2): over any run with no RESET in it, from any state and under any interleaving, the bytes data-in
reads return, followed by the bytes still queued, are what they were followed by a subsequence, in order, of the
inbound bytes taken; and all of those where the queue cannot have overflowed. -/
def Obligations.BytesAreDeliveredInArrivalOrder : Prop :=
  ∀ (n : Nat) (s t : State), (∀ i ∈ s.inputs, isResetInput i = false) → run n s = .next t →
    ∃ taken kept : List Byte,
      inboundBytes s.inputs = taken ++ inboundBytes t.inputs ∧ kept.Sublist taken ∧
      delivered t ++ t.card.receiveQueue = delivered s ++ s.card.receiveQueue ++ kept ∧
      (s.card.receiveQueue.length + taken.length ≤ 512 → kept = taken)

/-- R67: "reading data-in k times ... returns B1..Bk in that order". -/
def Obligations.DataReadsReturnTheQueueInOrder : Prop :=
  ∀ (bs q : List Byte) (s : State) (rest : List Input), s.hostPending = .idle → s.card.receiveQueue = bs ++ q →
    s.inputs = List.replicate bs.length (.event 0x0E00#16) ++ rest →
    ∃ t, run bs.length s = .next t ∧ t.hostPending = .idle ∧ t.inputs = rest ∧ t.card.receiveQueue = q ∧
      t.readLog = s.readLog ++ bs.map (fun b => ⟨.register 0xE#4, b⟩)

/-- R68: over every run, from every state and under every interleaving, exactly one single-byte datagram per write to
data-out taken, in write order, each the byte written; and N writes on an idle host are all carried out. -/
def Obligations.DataWritesAreSentInOrder : Prop :=
  (∀ (n : Nat) (s t : State), run n s = .next t →
    ∃ sent : List Byte, writtenBytes s.inputs = sent ++ writtenBytes t.inputs ∧ t.txLog = s.txLog ++ sent) ∧
  (∀ (vs : List Byte) (s : State) (rest : List Input), s.hostPending = .idle →
    s.inputs = vs.map (fun v => .event (writeWord 0xD#4 v)) ++ rest →
    ∃ t, run vs.length s = .next t ∧ t.hostPending = .idle ∧ t.inputs = rest ∧ t.txLog = s.txLog ++ vs ∧
      t.card.receiveQueue = s.card.receiveQueue ∧ t.card.outputFlags = s.card.outputFlags)

/-- R202, R102 (decision D14): a datagram becomes one `RX_BYTE` per payload byte; with room for `m` bytes the first
`m` are kept and the others dropped, one `WARN(QueueFull)` each; no payload is too long. -/
def Obligations.DatagramIsKeptUpToTheRoomLeft : Prop :=
  ∀ (payload : List Byte) (s : State) (rest : List Input), s.inputs = rxd payload ++ rest →
    run payload.length s = .next
      { s with
        card := { s.card with
          receiveQueue := s.card.receiveQueue ++ payload.take (512 - s.card.receiveQueue.length) }
        inputs := rest
        warnLog := s.warnLog ++
          List.replicate (payload.length - (512 - s.card.receiveQueue.length)) .queueFull }

/-- R71 (decision D12): an inbound byte and a HOST event give the same card in either order but in the three cases
the rule names, and in each of those the orders do differ; a read that would stall completes after the enqueue with
what the other order gives. -/
def Obligations.SimultaneousEventsDifferInThreeCases : Prop :=
  ∀ (s : State) (b : Byte) (i : Instr), s.hostPending = .idle → (∀ c, i ≠ .rxByte c) →
    ∃ r u v w, exec (.rxByte b) s = .next r ∧ exec i r = .next u ∧ exec i s = .next v ∧ exec (.rxByte b) v = .next w ∧
      (¬ (i = .rdFlagsIn ∧ s.card.receiveQueue = []) → ¬ (i = .rdDataIn ∧ 512 ≤ s.card.receiveQueue.length) →
        i ≠ .reset → (completeDataIn u).card = (completeDataIn w).card) ∧
      (i = .rdFlagsIn → s.card.receiveQueue = [] → s.card.inputFlags.getLsbD 7 = true →
        u.card.inputFlags.getLsbD 7 = false ∧ w.card.inputFlags.getLsbD 7 = true) ∧
      (i = .rdDataIn → s.card.receiveQueue.length = 512 →
        u.card.receiveQueue.length = 511 ∧ w.card.receiveQueue.length = 512) ∧
      (i = .reset → u.card.receiveQueue = [] ∧ w.card.receiveQueue = [b])

/-! ## Hazards -/

/-- R269 (the spec's derivation): "bytes available" appears one status read late. -/
def Obligations.AvailableAppearsOneReadLate : Prop :=
  ∀ (s : State) (b : Byte) (rest : List Input), s.hostPending = .idle → s.card.receiveQueue = [] →
    s.card.inputFlags.getLsbD 7 = true →
    s.inputs = .event (rxbWord b) :: .event 0x0B00#16 :: .event 0x0B00#16 :: rest →
    ∃ (t : State) (f g : Byte), run 3 s = .next t ∧ t.inputs = rest ∧ t.card.receiveQueue = [b] ∧
      t.readLog = s.readLog ++ [⟨.register 0xB#4, f⟩, ⟨.register 0xB#4, g⟩] ∧
      f.getLsbD 7 = true ∧ g.getLsbD 7 = false ∧ g.getLsbD 6 = !f.getLsbD 6

/-- R272: under polling alone bit 6 alternates: the `k`-th status read (from 0) returns it as it was, complemented
when `k` is odd. -/
def Obligations.SendConfirmAlternatesUnderPolling : Prop :=
  ∀ (n : Nat) (s : State) (rest : List Input), s.hostPending = .idle →
    s.inputs = List.replicate n (.event 0x0B00#16) ++ rest →
    ∃ (t : State) (bytes : List Byte), run n s = .next t ∧ t.inputs = rest ∧
      t.readLog = s.readLog ++ bytes.map (fun b => ⟨.register 0xB#4, b⟩) ∧
      bytes.map (fun b => b.getLsbD 6) =
        (List.range n).map (fun k => s.card.inputFlags.getLsbD 6 != decide (k % 2 = 1))

/-- R120 (d), S4: two status reads in a row with the queue empty toggle bit 6 between them and leave bit 7; the second
restores what the first changed. -/
def Obligations.TwoStatusReadsOnEmptyQueue : Prop :=
  ∀ (s : State), s.hostPending = .idle → s.card.receiveQueue = [] →
    ∃ t u, exec .rdFlagsIn s = .next t ∧ exec .rdFlagsIn t = .next u ∧ u.card = s.card ∧
      u.readLog = s.readLog ++
        [⟨.register 0xB#4, s.card.inputFlags⟩, ⟨.register 0xB#4, s.card.inputFlags ^^^ 0x40#8⟩]

/-! ## Primitives, memory, construction -/

/-- R181, R183, R184 whole. -/
def Obligations.QueuePrimitivesAsStated : Prop :=
  ∀ (q : List Byte) (b : Byte),
    (q.length < 512 → tryEnqueue q b = (q ++ [b], true)) ∧
    (512 ≤ q.length → tryEnqueue q b = (q, false)) ∧
    (queueIsEmpty q = true ↔ q.length = 0) ∧
    clearQueue q = [] ∧ tryEnqueue (clearQueue q) b = ([b], true)

/-- The model's firmware memory (R163, R165): a byte populated reads back, every other offset reads as before. -/
def Obligations.PopulatedByteReadsBack : Prop :=
  ∀ (w : FwWindow) (m : Memory) (a : Nat) (v : Byte), a < w.size →
    Memory.read w (Memory.write w m a v) a = v ∧
    ∀ a', a' ≠ a → Memory.read w (Memory.write w m a v) a' = Memory.read w m a'

/-- R163, R165: a constructed card serves the firmware image verbatim; a byte no image populated reads as the window's
parameter (decision D9, log entry 2). -/
def Obligations.ConstructedCardServesTheImage : Prop :=
  ∀ (peer : PeerEndpoint) (img : FirmwareImage) (s : State), construct peer (some img) true = .ok s →
    (∀ off, off < 256 → Memory.read .a s.fwA off = img.fwA[off]?.getD (Config.FW_A off)) ∧
    (∀ off, off < 1792 → Memory.read .b s.fwB off = img.fwB[off]?.getD (Config.FW_B off)) ∧
    Memory.wf .a s.fwA = true ∧ Memory.wf .b s.fwB = true

/-- R264, R265, R225, R226: construction gives the reset state with the given peer and empty histories; without
firmware it only logs, so that the diagnostic history then holds one `FirmwareLoadFailure`, the model's reading of
R225 beside R37; without a transport there is no card, and the name `socketOpenFailure` is the model's (log entry
17). With the model's parameters it gives `State.reset` (log entries 1 and 2). -/
def Obligations.ConstructionGivesTheResetState : Prop :=
  (∀ (peer : PeerEndpoint), construct peer none true =
    .ok { State.reset with
      card := { State.reset.card with peerEndpoint := peer }
      warnLog := [.firmwareLoadFailure] }) ∧
  (∀ (peer : PeerEndpoint) (img : FirmwareImage), ∃ fwA fwB, construct peer (some img) true =
    .ok { State.reset with card := { State.reset.card with peerEndpoint := peer }, fwA := fwA, fwB := fwB }) ∧
  (∀ (peer : PeerEndpoint) (image : Option FirmwareImage), construct peer image false = .error .socketOpenFailure) ∧
  construct ⟨Config.peerHost, Config.peerPort⟩
    (some ⟨(List.range 256).map Config.FW_A, (List.range 1792).map Config.FW_B⟩) true = .ok State.reset
end

