-- ==== Sys2Proof/Laws/Decode.lean ====
section
/-! SUPPORT. The fields of the words the encoder makes, and that the dispatcher follows the register map (R51). -/

namespace Sys2Proof

@[simp] theorem fieldCls_accWord (k : Bool) (off : Offset) (d : Byte) : fieldCls (accWord k off d) = 0b00#2 := by
  simp only [fieldCls, accWord, Config.WIN_BITS]; ext i hi; interval_cases i <;> simp
@[simp] theorem fieldZ_accWord (k : Bool) (off : Offset) (d : Byte) : fieldZ (accWord k off d) = false := by
  simp [fieldZ, accWord, Config.WIN_BITS]
@[simp] theorem fieldK_accWord (k : Bool) (off : Offset) (d : Byte) : fieldK (accWord k off d) = k := by
  simp [fieldK, accWord]
@[simp] theorem fieldOff_accWord (k : Bool) (off : Offset) (d : Byte) : fieldOff (accWord k off d) = off := by
  simp only [fieldOff, accWord, Config.WIN_BITS]; ext i hi; interval_cases i <;> simp
@[simp] theorem fieldD_accWord (k : Bool) (off : Offset) (d : Byte) : fieldD (accWord k off d) = d := by
  simp only [fieldD, accWord]; ext i hi; interval_cases i <;> simp

@[simp] theorem fieldCls_rxbWord (d : Byte) : fieldCls (rxbWord d) = 0b01#2 := by
  simp only [fieldCls, rxbWord]; ext i hi; interval_cases i <;> simp
@[simp] theorem fieldZ_rxbWord (d : Byte) : fieldZ (rxbWord d) = false := by
  simp [fieldZ, rxbWord]
@[simp] theorem fieldK_rxbWord (d : Byte) : fieldK (rxbWord d) = false := by
  simp [fieldK, rxbWord]
@[simp] theorem fieldOff_rxbWord (d : Byte) : fieldOff (rxbWord d) = 0 := by
  simp only [fieldOff, rxbWord, Config.WIN_BITS]; ext i hi; interval_cases i <;> simp
@[simp] theorem fieldD_rxbWord (d : Byte) : fieldD (rxbWord d) = d := by
  simp only [fieldD, rxbWord]; ext i hi; interval_cases i <;> simp

/-- A read word selects the read column of the opcode map (R94). -/
theorem decode_readWord (off : Offset) : decode (readWord off) = .ok (dispatchRead off) := by
  simp [decode, readWord, dispatch]
/-- A write word selects the write column of the opcode map (R94). -/
theorem decode_writeWord (off : Offset) (d : Byte) : decode (writeWord off d) = .ok (dispatchWrite off d) := by
  simp [decode, writeWord, dispatch]
/-- An RXB word is the LISTENER's step with its byte (R95). -/
theorem decode_rxbWord (d : Byte) : decode (rxbWord d) = .ok (.rxByte d) := by
  simp [decode]
/-- The RST word is RESET (R96). -/
theorem decode_rstWord : decode rstWord = .ok .reset := by decide

/-! ## The dispatcher -/

@[simp] theorem dispatchRead_flagsIn : dispatchRead Config.OFF_FLAGS_IN = .rdFlagsIn := if_pos rfl
@[simp] theorem dispatchRead_dataIn : dispatchRead Config.OFF_DATA_IN = .rdDataIn := rfl
@[simp] theorem dispatchWrite_flagsOut (v : Byte) : dispatchWrite Config.OFF_FLAGS_OUT v = .wrFlagsOut v := if_pos rfl
@[simp] theorem dispatchWrite_dataOut (v : Byte) : dispatchWrite Config.OFF_DATA_OUT v = .wrDataOut v := rfl

/-- A read of any other offset has no operation. -/
theorem dispatchRead_nop {off : Offset} (hf : off ≠ Config.OFF_FLAGS_IN) (hd : off ≠ Config.OFF_DATA_IN) :
    dispatchRead off = readNopAt off := by rw [dispatchRead, if_neg hf, if_neg hd]
/-- A write to any other offset has no operation. -/
theorem dispatchWrite_nop {off : Offset} (v : Byte) (hf : off ≠ Config.OFF_FLAGS_OUT)
    (hd : off ≠ Config.OFF_DATA_OUT) : dispatchWrite off v = writeNopAt off v := by
  rw [dispatchWrite, if_neg hf, if_neg hd]

/-- The dispatcher selects HOST accesses only: never the LISTENER's step (R61). -/
theorem dispatch_ne_rxByte (off : Offset) (k : AccessKind) (v b : Byte) : dispatch off k v ≠ .rxByte b := by
  cases k <;> simp only [dispatch, dispatchRead, dispatchWrite, readNopAt, writeNopAt] <;> (repeat' split) <;> simp

/-- Nor RESET (R61, R262). -/
theorem dispatch_ne_reset (off : Offset) (k : AccessKind) (v : Byte) : dispatch off k v ≠ .reset := by
  cases k <;> simp only [dispatch, dispatchRead, dispatchWrite, readNopAt, writeNopAt] <;> (repeat' split) <;> simp

end Sys2Proof
end

