-- ==== Sys2Proof/Laws/Flags.lean ====
section
/-! SUPPORT. Every flag computation of the card bit by bit, and as the spec's one bitwise expression (R40). -/

namespace Sys2Proof.Machine

/-! ## One bit at a time -/

theorem getLsbD_setBit (v : Byte) (n m : Nat) (hm : m < 8) :
    (setBit v n).getLsbD m = (v.getLsbD m || decide (m = n)) := by
  rcases Nat.lt_trichotomy m n with h | h | h
  · simp [setBit, hm, h, Nat.ne_of_lt h]
  · subst h; simp [setBit, hm]
  · have h1 : ¬ m < n := by omega
    have h2 : m ≠ n := by omega
    have h3 : m - n ≠ 0 := by omega
    simp [setBit, hm, h1, h2, h3]

theorem getLsbD_clearBit (v : Byte) (n m : Nat) (hm : m < 8) :
    (clearBit v n).getLsbD m = (v.getLsbD m && !decide (m = n)) := by
  rcases Nat.lt_trichotomy m n with h | h | h
  · simp [clearBit, hm, h, Nat.ne_of_lt h]
  · subst h; simp [clearBit, hm]
  · have h1 : ¬ m < n := by omega
    have h2 : m ≠ n := by omega
    have h3 : m - n ≠ 0 := by omega
    simp [clearBit, hm, h1, h2, h3]

theorem getLsbD_toggleBit (v : Byte) (n m : Nat) (hm : m < 8) :
    (toggleBit v n).getLsbD m = (v.getLsbD m != decide (m = n)) := by
  rcases Nat.lt_trichotomy m n with h | h | h
  · simp [toggleBit, hm, h, Nat.ne_of_lt h]
  · subst h; simp [toggleBit, hm]
  · have h1 : ¬ m < n := by omega
    have h2 : m ≠ n := by omega
    have h3 : m - n ≠ 0 := by omega
    simp [toggleBit, hm, h1, h2, h3]

theorem getLsbD_assignBit (v : Byte) (n m : Nat) (b : Bool) (hm : m < 8) :
    (assignBit v n b).getLsbD m = if m = n then b else v.getLsbD m := by
  cases b
  · rw [assignBit, if_neg Bool.false_ne_true, getLsbD_clearBit v n m hm]
    by_cases h : m = n <;> simp [h]
  · rw [assignBit, if_pos rfl, getLsbD_setBit v n m hm]
    by_cases h : m = n <;> simp [h]

/-! ## The spec's expressions -/

/-- R120: `(v AND (if ne then 0x7F else 0xFF)) XOR 0x40`. -/
theorem statusReadFlags_eq (v : Byte) (ne : Bool) :
    statusReadFlags v ne = (v &&& (if ne then 0x7F#8 else 0xFF#8)) ^^^ 0x40#8 := by
  revert v ne; decide

/-- R121: `OR 0x80`. -/
theorem dataReadFlags_eq (v : Byte) : dataReadFlags v = v ||| 0x80#8 := by
  revert v; decide

/-- R140: `AND 0xBF`. -/
theorem dataWriteFlags_eq (v : Byte) : dataWriteFlags v = v &&& 0xBF#8 := by
  revert v; decide

/-- R141: `(input_flags AND 0xBF) OR (if v[1] = 0 then 0x40 else 0x00)`. -/
theorem flagsWriteFlags_eq (f v : Byte) :
    flagsWriteFlags f v = (f &&& 0xBF#8) ||| (if v.getLsbD 1 then 0x00#8 else 0x40#8) := by
  have key : ∀ (f : Byte) (b : Bool),
      assignBit f Config.BIT_SEND_CONF (!b) = (f &&& 0xBF#8) ||| (if b then 0x00#8 else 0x40#8) := by decide
  exact key f (v.getLsbD 1)

/-! ## Bits 7, 6 and 5:0 after each update -/

@[simp] theorem receiveRequest_statusReadFlags (v : Byte) (ne : Bool) :
    receiveRequest (statusReadFlags v ne) = (receiveRequest v && !ne) := by revert v ne; decide
@[simp] theorem sendConfirm_statusReadFlags (v : Byte) (ne : Bool) :
    sendConfirm (statusReadFlags v ne) = !sendConfirm v := by revert v ne; decide
@[simp] theorem low_statusReadFlags (v : Byte) (ne : Bool) :
    statusReadFlags v ne &&& 0x3F#8 = v &&& 0x3F#8 := by revert v ne; decide

@[simp] theorem receiveRequest_dataReadFlags (v : Byte) : receiveRequest (dataReadFlags v) = true := by
  revert v; decide
@[simp] theorem sendConfirm_dataReadFlags (v : Byte) : sendConfirm (dataReadFlags v) = sendConfirm v := by
  revert v; decide
@[simp] theorem low_dataReadFlags (v : Byte) : dataReadFlags v &&& 0x3F#8 = v &&& 0x3F#8 := by
  revert v; decide

@[simp] theorem receiveRequest_dataWriteFlags (v : Byte) : receiveRequest (dataWriteFlags v) = receiveRequest v := by
  revert v; decide
@[simp] theorem sendConfirm_dataWriteFlags (v : Byte) : sendConfirm (dataWriteFlags v) = false := by
  revert v; decide
@[simp] theorem low_dataWriteFlags (v : Byte) : dataWriteFlags v &&& 0x3F#8 = v &&& 0x3F#8 := by
  revert v; decide

theorem assignSendConfirm_bits : ∀ (f : Byte) (b : Bool),
    receiveRequest (assignBit f Config.BIT_SEND_CONF b) = receiveRequest f ∧
    sendConfirm (assignBit f Config.BIT_SEND_CONF b) = b ∧
    assignBit f Config.BIT_SEND_CONF b &&& 0x3F#8 = f &&& 0x3F#8 := by decide

@[simp] theorem receiveRequest_flagsWriteFlags (f v : Byte) :
    receiveRequest (flagsWriteFlags f v) = receiveRequest f := (assignSendConfirm_bits f _).1
@[simp] theorem sendConfirm_flagsWriteFlags (f v : Byte) :
    sendConfirm (flagsWriteFlags f v) = !receiveConfirm v := (assignSendConfirm_bits f _).2.1
@[simp] theorem low_flagsWriteFlags (f v : Byte) :
    flagsWriteFlags f v &&& 0x3F#8 = f &&& 0x3F#8 := (assignSendConfirm_bits f _).2.2

end Sys2Proof.Machine
end

