-- ==== Sys2Proof/Laws/Memory.lean ====
section
/-! SUPPORT. Firmware-window memory: a read after a write, and every operation keeps the canonical form. -/

namespace Sys2Proof.Machine

@[simp] theorem Memory.read_nil (w : FwWindow) (a : Nat) : Memory.read w [] a = w.unlisted a := rfl

/-! ## What a read gives after each operation -/

theorem Memory.read_erase_self (w : FwWindow) (a : Nat) (m : Memory) :
    Memory.read w (Memory.erase a m) a = w.unlisted a := by
  induction m with
  | nil => rfl
  | cons c m ih =>
    obtain ⟨x, b⟩ := c
    by_cases h : x = a
    · simpa [Memory.erase, h] using ih
    · simpa [Memory.erase, Memory.read, h] using ih

theorem Memory.read_erase_other (w : FwWindow) {a a' : Nat} (m : Memory) (h : a' ≠ a) :
    Memory.read w (Memory.erase a m) a' = Memory.read w m a' := by
  induction m with
  | nil => rfl
  | cons c m ih =>
    obtain ⟨x, b⟩ := c
    by_cases hx : x = a
    · have : x ≠ a' := by omega
      simpa [Memory.erase, Memory.read, hx, this, h.symm] using ih
    · by_cases hx' : x = a' <;> simp [Memory.erase, Memory.read, hx, hx', h, ih]

theorem Memory.read_insert_self (w : FwWindow) (a : Nat) (v : Byte) (m : Memory) :
    Memory.read w (Memory.insert a v m) a = v := by
  induction m with
  | nil => simp [Memory.insert, Memory.read]
  | cons c m ih =>
    obtain ⟨x, b⟩ := c
    rcases Nat.lt_trichotomy a x with h | h | h
    · simp [Memory.insert, Memory.read, h]
    · simp [Memory.insert, Memory.read, h]
    · have h1 : ¬ a < x := by omega
      have h2 : a ≠ x := by omega
      simpa [Memory.insert, Memory.read, h1, h2, h2.symm] using ih

theorem Memory.read_insert_other (w : FwWindow) {a a' : Nat} (v : Byte) (m : Memory) (h : a' ≠ a) :
    Memory.read w (Memory.insert a v m) a' = Memory.read w m a' := by
  induction m with
  | nil => simp [Memory.insert, Memory.read, h.symm]
  | cons c m ih =>
    obtain ⟨x, b⟩ := c
    rcases Nat.lt_trichotomy a x with hx | hx | hx
    · simp [Memory.insert, Memory.read, hx, h.symm]
    · subst hx; simp [Memory.insert, Memory.read, h.symm]
    · have h1 : ¬ a < x := by omega
      have h2 : a ≠ x := by omega
      rw [Memory.insert, if_neg h1, if_neg h2]
      by_cases hx' : x = a' <;> simp [Memory.read, hx', ih]

/-! ## The canonical form -/

/-- The canonical form of a list with a head. -/
theorem Memory.wf_cons {w : FwWindow} {x : Nat} {b : Byte} {m : Memory} :
    Memory.wf w ((x, b) :: m) = true ↔
      x < w.size ∧ b ≠ w.unlisted x ∧ (∀ c ∈ m, x < c.1) ∧ Memory.wf w m = true := by
  simp [Memory.wf, and_assoc]

theorem Memory.mem_erase {a : Nat} {m : Memory} {c : Host.Cell} (h : c ∈ Memory.erase a m) : c ∈ m := by
  induction m with
  | nil => exact h
  | cons d m ih =>
    obtain ⟨x, b⟩ := d
    by_cases hx : x = a
    · simp only [Memory.erase, if_pos hx] at h; exact List.mem_cons_of_mem _ (ih h)
    · simp only [Memory.erase, if_neg hx, List.mem_cons] at h
      exact List.mem_cons.2 (h.imp id ih)

theorem Memory.mem_insert {a : Nat} {v : Byte} {m : Memory} {c : Host.Cell} (h : c ∈ Memory.insert a v m) :
    c = (a, v) ∨ c ∈ m := by
  induction m with
  | nil => simpa [Memory.insert] using h
  | cons d m ih =>
    obtain ⟨x, b⟩ := d
    simp only [Memory.insert] at h
    split at h
    · simpa using h
    · split at h
      · exact (List.mem_cons.1 h).imp id (List.mem_cons_of_mem _)
      · rcases List.mem_cons.1 h with h | h
        · exact .inr (h ▸ List.mem_cons_self)
        · exact (ih h).imp id (List.mem_cons_of_mem _)

theorem Memory.erase_wf {w : FwWindow} (a : Nat) {m : Memory} (h : Memory.wf w m = true) :
    Memory.wf w (Memory.erase a m) = true := by
  induction m with
  | nil => rfl
  | cons d m ih =>
    obtain ⟨x, b⟩ := d
    obtain ⟨h1, h2, h3, h4⟩ := Memory.wf_cons.1 h
    by_cases hx : x = a
    · simpa only [Memory.erase, if_pos hx] using ih h4
    · simp only [Memory.erase, if_neg hx]
      exact Memory.wf_cons.2 ⟨h1, h2, fun c hc => h3 c (Memory.mem_erase hc), ih h4⟩

theorem Memory.insert_wf {w : FwWindow} {a : Nat} {v : Byte} {m : Memory} (ha : a < w.size)
    (hv : v ≠ w.unlisted a) (h : Memory.wf w m = true) : Memory.wf w (Memory.insert a v m) = true := by
  induction m with
  | nil => exact Memory.wf_cons.2 ⟨ha, hv, by simp, rfl⟩
  | cons d m ih =>
    obtain ⟨x, b⟩ := d
    obtain ⟨h1, h2, h3, h4⟩ := Memory.wf_cons.1 h
    simp only [Memory.insert]
    split
    case isTrue hlt =>
      refine Memory.wf_cons.2 ⟨ha, hv, fun c hc => ?_, h⟩
      rcases List.mem_cons.1 hc with hc | hc
      · exact hc ▸ hlt
      · exact Nat.lt_trans hlt (h3 c hc)
    case isFalse hlt =>
      split
      case isTrue heq => exact Memory.wf_cons.2 ⟨ha, hv, fun c hc => heq ▸ h3 c hc, h4⟩
      case isFalse hne =>
        refine Memory.wf_cons.2 ⟨h1, h2, fun c hc => ?_, ih h4⟩
        rcases Memory.mem_insert hc with hc | hc
        · subst hc; show x < a; omega
        · exact h3 c hc

/-- Every write keeps the canonical form. -/
theorem Memory.write_wf {w : FwWindow} (a : Nat) (v : Byte) {m : Memory} (h : Memory.wf w m = true) :
    Memory.wf w (Memory.write w m a v) = true := by
  unfold Memory.write
  split
  case isTrue ha =>
    split
    · exact Memory.erase_wf a h
    case isFalse hv => exact Memory.insert_wf ha hv h
  · exact h

/-- Populating keeps the canonical form. -/
theorem Memory.populate_wf {w : FwWindow} (vs : List Byte) :
    ∀ (a : Nat) {m : Memory}, Memory.wf w m = true → Memory.wf w (Memory.populate w a vs m) = true := by
  induction vs with
  | nil => intro a m h; exact h
  | cons v vs ih => intro a m h; exact ih (a + 1) (Memory.write_wf a v h)

end Sys2Proof.Machine
end

