-- ==== Sys2Proof/Laws/Queue.lean ====
section
/-! SUPPORT. The queue primitives (R181 to R186): one spec lemma each. -/

namespace Sys2Proof.Machine

/-- Everything `try_enqueue` can do (R181). -/
theorem tryEnqueue_cases (q : List Byte) (b : Byte) :
    (q.length < Config.QCAP ∧ tryEnqueue q b = (q ++ [b], true)) ∨
    (Config.QCAP ≤ q.length ∧ tryEnqueue q b = (q, false)) := by
  by_cases h : q.length < Config.QCAP
  · exact .inl ⟨h, by simp only [tryEnqueue, if_pos h]⟩
  · exact .inr ⟨Nat.le_of_not_lt h, by simp only [tryEnqueue, if_neg h]⟩

theorem tryEnqueue_room {q : List Byte} (b : Byte) (h : q.length < Config.QCAP) :
    tryEnqueue q b = (q ++ [b], true) := by simp only [tryEnqueue, if_pos h]

theorem tryEnqueue_full {q : List Byte} (b : Byte) (h : Config.QCAP ≤ q.length) :
    tryEnqueue q b = (q, false) := by simp only [tryEnqueue, if_neg (Nat.not_lt.2 h)]

@[simp] theorem dequeue_nil : dequeue [] = none := rfl
@[simp] theorem dequeue_cons (b : Byte) (q : List Byte) : dequeue (b :: q) = some (b, q) := rfl

/-- `dequeue_blocking` takes the oldest byte and nothing else (R182). -/
theorem dequeue_eq_some {q q' : List Byte} {b : Byte} : dequeue q = some (b, q') ↔ q = b :: q' := by
  cases q <;> simp

@[simp] theorem queueIsEmpty_nil : queueIsEmpty [] = true := rfl
@[simp] theorem queueIsEmpty_cons (b : Byte) (q : List Byte) : queueIsEmpty (b :: q) = false := rfl
theorem queueIsEmpty_iff {q : List Byte} : queueIsEmpty q = true ↔ q = [] := by cases q <;> simp
theorem queueIsEmpty_eq_false {q : List Byte} : queueIsEmpty q = false ↔ q ≠ [] := by cases q <;> simp

@[simp] theorem clearQueue_eq (q : List Byte) : clearQueue q = [] := rfl

end Sys2Proof.Machine
end

