-- ==== Sys2Proof/Laws/State.lean ====
section
/-! SUPPORT. What each setter of Ops.lean does to each field: one lemma per field per update, true by rfl. -/

namespace Sys2Proof.Machine

/-! ### setOutputFlags -/

@[simp] theorem setOutputFlags_outputFlags (s : State) (v : Byte) : (s.setOutputFlags v).card.outputFlags = v := rfl
@[simp] theorem setOutputFlags_inputFlags (s : State) (v : Byte) : (s.setOutputFlags v).card.inputFlags = s.card.inputFlags := rfl
@[simp] theorem setOutputFlags_receiveQueue (s : State) (v : Byte) : (s.setOutputFlags v).card.receiveQueue = s.card.receiveQueue := rfl
@[simp] theorem setOutputFlags_peerEndpoint (s : State) (v : Byte) : (s.setOutputFlags v).card.peerEndpoint = s.card.peerEndpoint := rfl
@[simp] theorem setOutputFlags_hostPending (s : State) (v : Byte) : (s.setOutputFlags v).hostPending = s.hostPending := rfl
@[simp] theorem setOutputFlags_fwA (s : State) (v : Byte) : (s.setOutputFlags v).fwA = s.fwA := rfl
@[simp] theorem setOutputFlags_fwB (s : State) (v : Byte) : (s.setOutputFlags v).fwB = s.fwB := rfl
@[simp] theorem setOutputFlags_inputs (s : State) (v : Byte) : (s.setOutputFlags v).inputs = s.inputs := rfl
@[simp] theorem setOutputFlags_txLog (s : State) (v : Byte) : (s.setOutputFlags v).txLog = s.txLog := rfl
@[simp] theorem setOutputFlags_warnLog (s : State) (v : Byte) : (s.setOutputFlags v).warnLog = s.warnLog := rfl
@[simp] theorem setOutputFlags_readLog (s : State) (v : Byte) : (s.setOutputFlags v).readLog = s.readLog := rfl
@[simp] theorem setOutputFlags_drawCount (s : State) (v : Byte) : (s.setOutputFlags v).drawCount = s.drawCount := rfl
@[simp] theorem setOutputFlags_firmware (s : State) (v : Byte) (w : FwWindow) : (s.setOutputFlags v).firmware w = s.firmware w := by cases w <;> rfl

/-! ### setInputFlags -/

@[simp] theorem setInputFlags_outputFlags (s : State) (v : Byte) : (s.setInputFlags v).card.outputFlags = s.card.outputFlags := rfl
@[simp] theorem setInputFlags_inputFlags (s : State) (v : Byte) : (s.setInputFlags v).card.inputFlags = v := rfl
@[simp] theorem setInputFlags_receiveQueue (s : State) (v : Byte) : (s.setInputFlags v).card.receiveQueue = s.card.receiveQueue := rfl
@[simp] theorem setInputFlags_peerEndpoint (s : State) (v : Byte) : (s.setInputFlags v).card.peerEndpoint = s.card.peerEndpoint := rfl
@[simp] theorem setInputFlags_hostPending (s : State) (v : Byte) : (s.setInputFlags v).hostPending = s.hostPending := rfl
@[simp] theorem setInputFlags_fwA (s : State) (v : Byte) : (s.setInputFlags v).fwA = s.fwA := rfl
@[simp] theorem setInputFlags_fwB (s : State) (v : Byte) : (s.setInputFlags v).fwB = s.fwB := rfl
@[simp] theorem setInputFlags_inputs (s : State) (v : Byte) : (s.setInputFlags v).inputs = s.inputs := rfl
@[simp] theorem setInputFlags_txLog (s : State) (v : Byte) : (s.setInputFlags v).txLog = s.txLog := rfl
@[simp] theorem setInputFlags_warnLog (s : State) (v : Byte) : (s.setInputFlags v).warnLog = s.warnLog := rfl
@[simp] theorem setInputFlags_readLog (s : State) (v : Byte) : (s.setInputFlags v).readLog = s.readLog := rfl
@[simp] theorem setInputFlags_drawCount (s : State) (v : Byte) : (s.setInputFlags v).drawCount = s.drawCount := rfl
@[simp] theorem setInputFlags_firmware (s : State) (v : Byte) (w : FwWindow) : (s.setInputFlags v).firmware w = s.firmware w := by cases w <;> rfl

/-! ### setQueue -/

@[simp] theorem setQueue_outputFlags (s : State) (q : List Byte) : (s.setQueue q).card.outputFlags = s.card.outputFlags := rfl
@[simp] theorem setQueue_inputFlags (s : State) (q : List Byte) : (s.setQueue q).card.inputFlags = s.card.inputFlags := rfl
@[simp] theorem setQueue_receiveQueue (s : State) (q : List Byte) : (s.setQueue q).card.receiveQueue = q := rfl
@[simp] theorem setQueue_peerEndpoint (s : State) (q : List Byte) : (s.setQueue q).card.peerEndpoint = s.card.peerEndpoint := rfl
@[simp] theorem setQueue_hostPending (s : State) (q : List Byte) : (s.setQueue q).hostPending = s.hostPending := rfl
@[simp] theorem setQueue_fwA (s : State) (q : List Byte) : (s.setQueue q).fwA = s.fwA := rfl
@[simp] theorem setQueue_fwB (s : State) (q : List Byte) : (s.setQueue q).fwB = s.fwB := rfl
@[simp] theorem setQueue_inputs (s : State) (q : List Byte) : (s.setQueue q).inputs = s.inputs := rfl
@[simp] theorem setQueue_txLog (s : State) (q : List Byte) : (s.setQueue q).txLog = s.txLog := rfl
@[simp] theorem setQueue_warnLog (s : State) (q : List Byte) : (s.setQueue q).warnLog = s.warnLog := rfl
@[simp] theorem setQueue_readLog (s : State) (q : List Byte) : (s.setQueue q).readLog = s.readLog := rfl
@[simp] theorem setQueue_drawCount (s : State) (q : List Byte) : (s.setQueue q).drawCount = s.drawCount := rfl
@[simp] theorem setQueue_firmware (s : State) (q : List Byte) (w : FwWindow) : (s.setQueue q).firmware w = s.firmware w := by cases w <;> rfl

/-! ### setPending -/

@[simp] theorem setPending_outputFlags (s : State) (p : HostPending) : (s.setPending p).card.outputFlags = s.card.outputFlags := rfl
@[simp] theorem setPending_inputFlags (s : State) (p : HostPending) : (s.setPending p).card.inputFlags = s.card.inputFlags := rfl
@[simp] theorem setPending_receiveQueue (s : State) (p : HostPending) : (s.setPending p).card.receiveQueue = s.card.receiveQueue := rfl
@[simp] theorem setPending_peerEndpoint (s : State) (p : HostPending) : (s.setPending p).card.peerEndpoint = s.card.peerEndpoint := rfl
@[simp] theorem setPending_hostPending (s : State) (p : HostPending) : (s.setPending p).hostPending = p := rfl
@[simp] theorem setPending_fwA (s : State) (p : HostPending) : (s.setPending p).fwA = s.fwA := rfl
@[simp] theorem setPending_fwB (s : State) (p : HostPending) : (s.setPending p).fwB = s.fwB := rfl
@[simp] theorem setPending_inputs (s : State) (p : HostPending) : (s.setPending p).inputs = s.inputs := rfl
@[simp] theorem setPending_txLog (s : State) (p : HostPending) : (s.setPending p).txLog = s.txLog := rfl
@[simp] theorem setPending_warnLog (s : State) (p : HostPending) : (s.setPending p).warnLog = s.warnLog := rfl
@[simp] theorem setPending_readLog (s : State) (p : HostPending) : (s.setPending p).readLog = s.readLog := rfl
@[simp] theorem setPending_drawCount (s : State) (p : HostPending) : (s.setPending p).drawCount = s.drawCount := rfl
@[simp] theorem setPending_firmware (s : State) (p : HostPending) (w : FwWindow) : (s.setPending p).firmware w = s.firmware w := by cases w <;> rfl

/-! ### setInputs -/

@[simp] theorem setInputs_outputFlags (s : State) (is : List Input) : (s.setInputs is).card.outputFlags = s.card.outputFlags := rfl
@[simp] theorem setInputs_inputFlags (s : State) (is : List Input) : (s.setInputs is).card.inputFlags = s.card.inputFlags := rfl
@[simp] theorem setInputs_receiveQueue (s : State) (is : List Input) : (s.setInputs is).card.receiveQueue = s.card.receiveQueue := rfl
@[simp] theorem setInputs_peerEndpoint (s : State) (is : List Input) : (s.setInputs is).card.peerEndpoint = s.card.peerEndpoint := rfl
@[simp] theorem setInputs_hostPending (s : State) (is : List Input) : (s.setInputs is).hostPending = s.hostPending := rfl
@[simp] theorem setInputs_fwA (s : State) (is : List Input) : (s.setInputs is).fwA = s.fwA := rfl
@[simp] theorem setInputs_fwB (s : State) (is : List Input) : (s.setInputs is).fwB = s.fwB := rfl
@[simp] theorem setInputs_inputs (s : State) (is : List Input) : (s.setInputs is).inputs = is := rfl
@[simp] theorem setInputs_txLog (s : State) (is : List Input) : (s.setInputs is).txLog = s.txLog := rfl
@[simp] theorem setInputs_warnLog (s : State) (is : List Input) : (s.setInputs is).warnLog = s.warnLog := rfl
@[simp] theorem setInputs_readLog (s : State) (is : List Input) : (s.setInputs is).readLog = s.readLog := rfl
@[simp] theorem setInputs_drawCount (s : State) (is : List Input) : (s.setInputs is).drawCount = s.drawCount := rfl
@[simp] theorem setInputs_firmware (s : State) (is : List Input) (w : FwWindow) : (s.setInputs is).firmware w = s.firmware w := by cases w <;> rfl

/-! ### logTx -/

@[simp] theorem logTx_outputFlags (s : State) (b : Byte) : (s.logTx b).card.outputFlags = s.card.outputFlags := rfl
@[simp] theorem logTx_inputFlags (s : State) (b : Byte) : (s.logTx b).card.inputFlags = s.card.inputFlags := rfl
@[simp] theorem logTx_receiveQueue (s : State) (b : Byte) : (s.logTx b).card.receiveQueue = s.card.receiveQueue := rfl
@[simp] theorem logTx_peerEndpoint (s : State) (b : Byte) : (s.logTx b).card.peerEndpoint = s.card.peerEndpoint := rfl
@[simp] theorem logTx_hostPending (s : State) (b : Byte) : (s.logTx b).hostPending = s.hostPending := rfl
@[simp] theorem logTx_fwA (s : State) (b : Byte) : (s.logTx b).fwA = s.fwA := rfl
@[simp] theorem logTx_fwB (s : State) (b : Byte) : (s.logTx b).fwB = s.fwB := rfl
@[simp] theorem logTx_inputs (s : State) (b : Byte) : (s.logTx b).inputs = s.inputs := rfl
@[simp] theorem logTx_txLog (s : State) (b : Byte) : (s.logTx b).txLog = s.txLog ++ [b] := rfl
@[simp] theorem logTx_warnLog (s : State) (b : Byte) : (s.logTx b).warnLog = s.warnLog := rfl
@[simp] theorem logTx_readLog (s : State) (b : Byte) : (s.logTx b).readLog = s.readLog := rfl
@[simp] theorem logTx_drawCount (s : State) (b : Byte) : (s.logTx b).drawCount = s.drawCount := rfl
@[simp] theorem logTx_firmware (s : State) (b : Byte) (w : FwWindow) : (s.logTx b).firmware w = s.firmware w := by cases w <;> rfl

/-! ### warn -/

@[simp] theorem warn_outputFlags (s : State) (k : WarnKind) : (s.warn k).card.outputFlags = s.card.outputFlags := rfl
@[simp] theorem warn_inputFlags (s : State) (k : WarnKind) : (s.warn k).card.inputFlags = s.card.inputFlags := rfl
@[simp] theorem warn_receiveQueue (s : State) (k : WarnKind) : (s.warn k).card.receiveQueue = s.card.receiveQueue := rfl
@[simp] theorem warn_peerEndpoint (s : State) (k : WarnKind) : (s.warn k).card.peerEndpoint = s.card.peerEndpoint := rfl
@[simp] theorem warn_hostPending (s : State) (k : WarnKind) : (s.warn k).hostPending = s.hostPending := rfl
@[simp] theorem warn_fwA (s : State) (k : WarnKind) : (s.warn k).fwA = s.fwA := rfl
@[simp] theorem warn_fwB (s : State) (k : WarnKind) : (s.warn k).fwB = s.fwB := rfl
@[simp] theorem warn_inputs (s : State) (k : WarnKind) : (s.warn k).inputs = s.inputs := rfl
@[simp] theorem warn_txLog (s : State) (k : WarnKind) : (s.warn k).txLog = s.txLog := rfl
@[simp] theorem warn_warnLog (s : State) (k : WarnKind) : (s.warn k).warnLog = s.warnLog ++ [k] := rfl
@[simp] theorem warn_readLog (s : State) (k : WarnKind) : (s.warn k).readLog = s.readLog := rfl
@[simp] theorem warn_drawCount (s : State) (k : WarnKind) : (s.warn k).drawCount = s.drawCount := rfl
@[simp] theorem warn_firmware (s : State) (k : WarnKind) (w : FwWindow) : (s.warn k).firmware w = s.firmware w := by cases w <;> rfl

/-! ### logRead -/

@[simp] theorem logRead_outputFlags (s : State) (src : ReadSource) (b : Byte) : (s.logRead src b).card.outputFlags = s.card.outputFlags := rfl
@[simp] theorem logRead_inputFlags (s : State) (src : ReadSource) (b : Byte) : (s.logRead src b).card.inputFlags = s.card.inputFlags := rfl
@[simp] theorem logRead_receiveQueue (s : State) (src : ReadSource) (b : Byte) : (s.logRead src b).card.receiveQueue = s.card.receiveQueue := rfl
@[simp] theorem logRead_peerEndpoint (s : State) (src : ReadSource) (b : Byte) : (s.logRead src b).card.peerEndpoint = s.card.peerEndpoint := rfl
@[simp] theorem logRead_hostPending (s : State) (src : ReadSource) (b : Byte) : (s.logRead src b).hostPending = s.hostPending := rfl
@[simp] theorem logRead_fwA (s : State) (src : ReadSource) (b : Byte) : (s.logRead src b).fwA = s.fwA := rfl
@[simp] theorem logRead_fwB (s : State) (src : ReadSource) (b : Byte) : (s.logRead src b).fwB = s.fwB := rfl
@[simp] theorem logRead_inputs (s : State) (src : ReadSource) (b : Byte) : (s.logRead src b).inputs = s.inputs := rfl
@[simp] theorem logRead_txLog (s : State) (src : ReadSource) (b : Byte) : (s.logRead src b).txLog = s.txLog := rfl
@[simp] theorem logRead_warnLog (s : State) (src : ReadSource) (b : Byte) : (s.logRead src b).warnLog = s.warnLog := rfl
@[simp] theorem logRead_readLog (s : State) (src : ReadSource) (b : Byte) : (s.logRead src b).readLog = s.readLog ++ [⟨src, b⟩] := rfl
@[simp] theorem logRead_drawCount (s : State) (src : ReadSource) (b : Byte) : (s.logRead src b).drawCount = s.drawCount := rfl
@[simp] theorem logRead_firmware (s : State) (src : ReadSource) (b : Byte) (w : FwWindow) : (s.logRead src b).firmware w = s.firmware w := by cases w <;> rfl

/-! ### draw -/

@[simp] theorem draw_outputFlags (s : State) : s.draw.card.outputFlags = s.card.outputFlags := rfl
@[simp] theorem draw_inputFlags (s : State) : s.draw.card.inputFlags = s.card.inputFlags := rfl
@[simp] theorem draw_receiveQueue (s : State) : s.draw.card.receiveQueue = s.card.receiveQueue := rfl
@[simp] theorem draw_peerEndpoint (s : State) : s.draw.card.peerEndpoint = s.card.peerEndpoint := rfl
@[simp] theorem draw_hostPending (s : State) : s.draw.hostPending = s.hostPending := rfl
@[simp] theorem draw_fwA (s : State) : s.draw.fwA = s.fwA := rfl
@[simp] theorem draw_fwB (s : State) : s.draw.fwB = s.fwB := rfl
@[simp] theorem draw_inputs (s : State) : s.draw.inputs = s.inputs := rfl
@[simp] theorem draw_txLog (s : State) : s.draw.txLog = s.txLog := rfl
@[simp] theorem draw_warnLog (s : State) : s.draw.warnLog = s.warnLog := rfl
@[simp] theorem draw_readLog (s : State) : s.draw.readLog = s.readLog := rfl
@[simp] theorem draw_drawCount (s : State) : s.draw.drawCount = s.drawCount + 1 := rfl
@[simp] theorem draw_firmware (s : State) (w : FwWindow) : s.draw.firmware w = s.firmware w := by cases w <;> rfl

end Sys2Proof.Machine
end

