-- ==== Sys2Proof/Laws/Ops.lean ====
section
/-! SUPPORT. One spec lemma per shared operation, and the inversion lemma of `exec`: everything an event can do. -/

namespace Sys2Proof.Machine

/-! ## The host's turn -/

theorem hostStep_idle {s : State} (h : s.hostPending = .idle) (f : State → State) :
    hostStep s f = .next (f s) := by simp [hostStep, h]

theorem hostStep_stalled {s : State} (h : s.hostPending = .stalledOnDataIn) (f : State → State) :
    hostStep s f = .next s := by simp [hostStep, h]

/-- Everything a host step can do: it takes effect while idle, and changes nothing while a read is stalled. -/
theorem hostStep_next {s t : State} {f : State → State} (h : hostStep s f = .next t) :
    (s.hostPending = .idle ∧ t = f s) ∨ (s.hostPending = .stalledOnDataIn ∧ t = s) := by
  cases hp : s.hostPending
  · rw [hostStep_idle hp] at h; cases h; exact .inl ⟨rfl, rfl⟩
  · rw [hostStep_stalled hp] at h; cases h; exact .inr ⟨rfl, rfl⟩

/-! ## The transmit side -/

/-- Everything `emit TX` does: one datagram, one draw, and at most one diagnostic event (R205, R206, R222). -/
theorem emitTx_eq (v : Byte) (s : State) :
    emitTx v s =
      { s with
        txLog := s.txLog ++ [v]
        warnLog := s.warnLog ++ (if Config.sendFails s.drawCount then [.transportSendFailure] else [])
        drawCount := s.drawCount + 1 } := rfl

/-! ## The data-in completion -/

theorem completeDataIn_enabled {s : State} {b : Byte} {q : List Byte} (hp : s.hostPending = .stalledOnDataIn)
    (hq : s.card.receiveQueue = b :: q) : completeDataIn s = (finishDataIn b q s).setPending .idle := by
  simp [completeDataIn, hp, hq]

theorem completeDataIn_idle {s : State} (hp : s.hostPending = .idle) : completeDataIn s = s := by
  simp [completeDataIn, hp]

theorem completeDataIn_empty {s : State} (hq : s.card.receiveQueue = []) : completeDataIn s = s := by
  cases hp : s.hostPending <;> simp [completeDataIn, hp, hq]

/-- Everything a completion can do. -/
theorem completeDataIn_cases (s : State) :
    (∃ b q, s.hostPending = .stalledOnDataIn ∧ s.card.receiveQueue = b :: q ∧
      completeDataIn s = (finishDataIn b q s).setPending .idle) ∨ completeDataIn s = s := by
  cases hq : s.card.receiveQueue with
  | nil => exact .inr (completeDataIn_empty hq)
  | cons b q =>
    cases hp : s.hostPending
    · exact .inr (completeDataIn_idle hp)
    · exact .inl ⟨b, q, rfl, rfl, completeDataIn_enabled hp hq⟩

@[simp] theorem finishDataIn_outputFlags (b : Byte) (q : List Byte) (s : State) :
    (finishDataIn b q s).card.outputFlags = s.card.outputFlags := rfl
@[simp] theorem finishDataIn_inputFlags (b : Byte) (q : List Byte) (s : State) :
    (finishDataIn b q s).card.inputFlags = dataReadFlags s.card.inputFlags := rfl
@[simp] theorem finishDataIn_receiveQueue (b : Byte) (q : List Byte) (s : State) :
    (finishDataIn b q s).card.receiveQueue = q := rfl
@[simp] theorem finishDataIn_peerEndpoint (b : Byte) (q : List Byte) (s : State) :
    (finishDataIn b q s).card.peerEndpoint = s.card.peerEndpoint := rfl
@[simp] theorem finishDataIn_hostPending (b : Byte) (q : List Byte) (s : State) :
    (finishDataIn b q s).hostPending = s.hostPending := rfl
@[simp] theorem finishDataIn_fwA (b : Byte) (q : List Byte) (s : State) : (finishDataIn b q s).fwA = s.fwA := rfl
@[simp] theorem finishDataIn_fwB (b : Byte) (q : List Byte) (s : State) : (finishDataIn b q s).fwB = s.fwB := rfl
@[simp] theorem finishDataIn_inputs (b : Byte) (q : List Byte) (s : State) :
    (finishDataIn b q s).inputs = s.inputs := rfl
@[simp] theorem finishDataIn_txLog (b : Byte) (q : List Byte) (s : State) :
    (finishDataIn b q s).txLog = s.txLog := rfl
@[simp] theorem finishDataIn_warnLog (b : Byte) (q : List Byte) (s : State) :
    (finishDataIn b q s).warnLog = s.warnLog := rfl
@[simp] theorem finishDataIn_readLog (b : Byte) (q : List Byte) (s : State) :
    (finishDataIn b q s).readLog = s.readLog ++ [⟨.register Config.OFF_DATA_IN, b⟩] := rfl
@[simp] theorem finishDataIn_drawCount (b : Byte) (q : List Byte) (s : State) :
    (finishDataIn b q s).drawCount = s.drawCount := rfl

/-! ## The inversion lemma of `exec` -/

/-- Everything a HOST event can do to an idle state: the seven shapes of R120, R121 (two), R140, R141, R160, R161 and
R260. -/
inductive HostEffect (s : State) : State → Prop where
  | statusRead : HostEffect s ((s.logRead (.register Config.OFF_FLAGS_IN) s.card.inputFlags).setInputFlags
      (statusReadFlags s.card.inputFlags (!queueIsEmpty s.card.receiveQueue)))
  | dataRead (b : Byte) (q : List Byte) (h : s.card.receiveQueue = b :: q) : HostEffect s (finishDataIn b q s)
  | dataStall (h : s.card.receiveQueue = []) : HostEffect s (s.setPending .stalledOnDataIn)
  | dataWrite (v : Byte) : HostEffect s ((emitTx v s).setInputFlags (dataWriteFlags s.card.inputFlags))
  | flagsWrite (v : Byte) :
      HostEffect s ((s.setOutputFlags v).setInputFlags (flagsWriteFlags s.card.inputFlags v))
  | nopRead (off : Offset) (hb : off ≠ Config.OFF_FLAGS_IN) (he : off ≠ Config.OFF_DATA_IN) :
      HostEffect s ((s.logRead (.register off) (Config.busByte s.drawCount)).draw)
  | nopWrite : HostEffect s s
  | reset : HostEffect s { s with card := resetCard s.card }

/-- A HOST event in the form every claim about it starts from: a host step whose effect is one of the seven shapes. -/
abbrev HostArm (i : Instr) : Prop := ∃ f : State → State, (∀ s, exec i s = hostStep s f) ∧ ∀ s, HostEffect s (f s)

theorem hostArm_statusRead : HostArm .rdFlagsIn := ⟨_, fun _ => rfl, fun _ => .statusRead⟩

theorem hostArm_dataRead : HostArm .rdDataIn := by
  refine ⟨_, fun _ => rfl, fun s => ?_⟩
  cases hq : s.card.receiveQueue with
  | nil => exact .dataStall hq
  | cons b q => exact .dataRead b q hq

theorem hostArm_dataWrite (v : Byte) : HostArm (.wrDataOut v) := ⟨_, fun _ => rfl, fun _ => .dataWrite v⟩

theorem hostArm_flagsWrite (v : Byte) : HostArm (.wrFlagsOut v) := ⟨_, fun _ => rfl, fun _ => .flagsWrite v⟩

theorem hostArm_reset : HostArm .reset := ⟨_, fun _ => rfl, fun _ => .reset⟩

theorem hostArm_nopRead {i : Instr} (off : Offset) (h : ∀ s, exec i s = readNop off s)
    (hb : off ≠ Config.OFF_FLAGS_IN) (he : off ≠ Config.OFF_DATA_IN) : HostArm i :=
  ⟨_, h, fun _ => .nopRead off hb he⟩

theorem hostArm_nopWrite {i : Instr} (off : Offset) (v : Byte) (h : ∀ s, exec i s = writeNop off v s) : HostArm i :=
  ⟨_, h, fun _ => .nopWrite⟩

/-- Every event but an inbound byte is a HOST event. -/
theorem hostArm {i : Instr} (hi : ∀ b, i ≠ .rxByte b) : HostArm i := by
  cases i
  case rxByte b => exact absurd rfl (hi b)
  case rdFlagsIn => exact hostArm_statusRead
  case rdDataIn => exact hostArm_dataRead
  case wrDataOut v => exact hostArm_dataWrite v
  case wrFlagsOut v => exact hostArm_flagsWrite v
  case reset => exact hostArm_reset
  case rdNop0 => exact hostArm_nopRead 0x0#4 (fun _ => rfl) (by decide) (by decide)
  case rdNop1 => exact hostArm_nopRead 0x1#4 (fun _ => rfl) (by decide) (by decide)
  case rdNop2 => exact hostArm_nopRead 0x2#4 (fun _ => rfl) (by decide) (by decide)
  case rdNop3 => exact hostArm_nopRead 0x3#4 (fun _ => rfl) (by decide) (by decide)
  case rdNop4 => exact hostArm_nopRead 0x4#4 (fun _ => rfl) (by decide) (by decide)
  case rdNop5 => exact hostArm_nopRead 0x5#4 (fun _ => rfl) (by decide) (by decide)
  case rdNop6 => exact hostArm_nopRead 0x6#4 (fun _ => rfl) (by decide) (by decide)
  case rdNop7 => exact hostArm_nopRead 0x7#4 (fun _ => rfl) (by decide) (by decide)
  case rdNop8 => exact hostArm_nopRead 0x8#4 (fun _ => rfl) (by decide) (by decide)
  case rdNop9 => exact hostArm_nopRead 0x9#4 (fun _ => rfl) (by decide) (by decide)
  case rdNopA => exact hostArm_nopRead 0xA#4 (fun _ => rfl) (by decide) (by decide)
  case rdNopC => exact hostArm_nopRead 0xC#4 (fun _ => rfl) (by decide) (by decide)
  case rdNopD => exact hostArm_nopRead 0xD#4 (fun _ => rfl) (by decide) (by decide)
  case rdNopF => exact hostArm_nopRead 0xF#4 (fun _ => rfl) (by decide) (by decide)
  case wrNop0 v => exact hostArm_nopWrite 0x0#4 v (fun _ => rfl)
  case wrNop1 v => exact hostArm_nopWrite 0x1#4 v (fun _ => rfl)
  case wrNop2 v => exact hostArm_nopWrite 0x2#4 v (fun _ => rfl)
  case wrNop3 v => exact hostArm_nopWrite 0x3#4 v (fun _ => rfl)
  case wrNop4 v => exact hostArm_nopWrite 0x4#4 v (fun _ => rfl)
  case wrNop5 v => exact hostArm_nopWrite 0x5#4 v (fun _ => rfl)
  case wrNop6 v => exact hostArm_nopWrite 0x6#4 v (fun _ => rfl)
  case wrNop8 v => exact hostArm_nopWrite 0x8#4 v (fun _ => rfl)
  case wrNop9 v => exact hostArm_nopWrite 0x9#4 v (fun _ => rfl)
  case wrNopA v => exact hostArm_nopWrite 0xA#4 v (fun _ => rfl)
  case wrNopB v => exact hostArm_nopWrite 0xB#4 v (fun _ => rfl)
  case wrNopC v => exact hostArm_nopWrite 0xC#4 v (fun _ => rfl)
  case wrNopE v => exact hostArm_nopWrite 0xE#4 v (fun _ => rfl)
  case wrNopF v => exact hostArm_nopWrite 0xF#4 v (fun _ => rfl)

theorem exec_rxByte_room {s : State} (b : Byte) (h : s.card.receiveQueue.length < Config.QCAP) :
    exec (.rxByte b) s = .next (s.setQueue (s.card.receiveQueue ++ [b])) := by
  simp only [exec, execRxByte, tryEnqueue_room b h]

theorem exec_rxByte_full {s : State} (b : Byte) (h : Config.QCAP ≤ s.card.receiveQueue.length) :
    exec (.rxByte b) s = .next (s.warn .queueFull) := by
  simp only [exec, execRxByte, tryEnqueue_full b h]

/-! ## Each event on an idle host -/

theorem exec_rdFlagsIn {s : State} (hp : s.hostPending = .idle) :
    exec .rdFlagsIn s = .next ((s.logRead (.register Config.OFF_FLAGS_IN) s.card.inputFlags).setInputFlags
      (statusReadFlags s.card.inputFlags (!queueIsEmpty s.card.receiveQueue))) := by
  show execRdFlagsIn s = _; exact hostStep_idle hp _

theorem exec_rdDataIn_cons {s : State} {b : Byte} {q : List Byte} (hp : s.hostPending = .idle)
    (hq : s.card.receiveQueue = b :: q) : exec .rdDataIn s = .next (finishDataIn b q s) := by
  show execRdDataIn s = _; simp [execRdDataIn, hostStep_idle hp, hq]

theorem exec_rdDataIn_nil {s : State} (hp : s.hostPending = .idle) (hq : s.card.receiveQueue = []) :
    exec .rdDataIn s = .next (s.setPending .stalledOnDataIn) := by
  show execRdDataIn s = _; simp [execRdDataIn, hostStep_idle hp, hq]

theorem exec_wrDataOut {s : State} (v : Byte) (hp : s.hostPending = .idle) :
    exec (.wrDataOut v) s = .next ((emitTx v s).setInputFlags (dataWriteFlags s.card.inputFlags)) := by
  show execWrDataOut v s = _; exact hostStep_idle hp _

theorem exec_wrFlagsOut {s : State} (v : Byte) (hp : s.hostPending = .idle) :
    exec (.wrFlagsOut v) s =
      .next ((s.setOutputFlags v).setInputFlags (flagsWriteFlags s.card.inputFlags v)) := by
  show execWrFlagsOut v s = _; exact hostStep_idle hp _

theorem exec_reset {s : State} (hp : s.hostPending = .idle) :
    exec .reset s = .next { s with card := resetCard s.card } := by
  show execReset s = _; exact hostStep_idle hp _

theorem readNop_idle {s : State} (off : Offset) (hp : s.hostPending = .idle) :
    readNop off s = .next ((s.logRead (.register off) (Config.busByte s.drawCount)).draw) := hostStep_idle hp _

theorem writeNop_idle {s : State} (off : Offset) (v : Byte) (hp : s.hostPending = .idle) :
    writeNop off v s = .next s := hostStep_idle hp _

/-- Everything an event can do: a HOST event acts on an idle state or is held on a stalled one; an inbound byte is
appended, or dropped with a diagnostic event. -/
theorem exec_cases {i : Instr} {s t : State} (h : exec i s = .next t) :
    ((∀ b, i ≠ .rxByte b) ∧
      ((s.hostPending = .idle ∧ HostEffect s t) ∨ (s.hostPending = .stalledOnDataIn ∧ t = s))) ∨
    (∃ b, i = .rxByte b ∧ s.card.receiveQueue.length < Config.QCAP ∧
      t = s.setQueue (s.card.receiveQueue ++ [b])) ∨
    (∃ b, i = .rxByte b ∧ Config.QCAP ≤ s.card.receiveQueue.length ∧ t = s.warn .queueFull) := by
  by_cases hi : ∀ b, i ≠ .rxByte b
  · obtain ⟨f, hf, he⟩ := hostArm hi
    rw [hf s] at h
    exact .inl ⟨hi, (hostStep_next h).imp (fun ⟨h1, h2⟩ => ⟨h1, h2 ▸ he s⟩) id⟩
  · obtain ⟨b, rfl⟩ : ∃ b, i = .rxByte b := by simpa using hi
    refine .inr ?_
    rcases Nat.lt_or_ge s.card.receiveQueue.length Config.QCAP with hl | hl
    · rw [exec_rxByte_room b hl] at h; cases h; exact .inl ⟨b, rfl, hl, rfl⟩
    · rw [exec_rxByte_full b hl] at h; cases h; exact .inr ⟨b, rfl, hl, rfl⟩

/-- `exec` always answers a next state: no event of the card faults or is refused (R220, R238). -/
theorem exec_total (i : Instr) (s : State) : ∃ t, exec i s = .next t := by
  by_cases hi : ∀ b, i ≠ .rxByte b
  · obtain ⟨f, hf, -⟩ := hostArm hi
    cases hp : s.hostPending
    · exact ⟨_, (hf s).trans (hostStep_idle hp f)⟩
    · exact ⟨_, (hf s).trans (hostStep_stalled hp f)⟩
  · obtain ⟨b, rfl⟩ : ∃ b, i = .rxByte b := by simpa using hi
    rcases Nat.lt_or_ge s.card.receiveQueue.length Config.QCAP with hl | hl
    · exact ⟨_, exec_rxByte_room b hl⟩
    · exact ⟨_, exec_rxByte_full b hl⟩

/-- While a data-in read is stalled every HOST event is held (R34, R121). -/
theorem exec_held {i : Instr} {s : State} (hi : ∀ b, i ≠ .rxByte b) (hp : s.hostPending = .stalledOnDataIn) :
    exec i s = .next s := by
  obtain ⟨f, hf, -⟩ := hostArm hi
  exact (hf s).trans (hostStep_stalled hp f)

end Sys2Proof.Machine
end

