-- ==== Sys2Proof/Laws/PerInstr.lean ====
section
/-! SUPPORT. Facts about every event as syntax, one lemma per constructor of Instr. -/

namespace Sys2Proof.Laws

/-! ## RoundTrip: decoding an event's word gives the event back -/

def RoundTrip.Statement (i : Instr) : Prop := decode (encode i) = .ok i

theorem RoundTrip.rdFlagsIn : RoundTrip.Statement .rdFlagsIn := decode_readWord _
theorem RoundTrip.rdDataIn : RoundTrip.Statement .rdDataIn := decode_readWord _
theorem RoundTrip.wrDataOut (d : Byte) : RoundTrip.Statement (.wrDataOut d) := decode_writeWord _ d
theorem RoundTrip.wrFlagsOut (d : Byte) : RoundTrip.Statement (.wrFlagsOut d) := decode_writeWord _ d
theorem RoundTrip.rdNop0 : RoundTrip.Statement .rdNop0 := decode_readWord _
theorem RoundTrip.rdNop1 : RoundTrip.Statement .rdNop1 := decode_readWord _
theorem RoundTrip.rdNop2 : RoundTrip.Statement .rdNop2 := decode_readWord _
theorem RoundTrip.rdNop3 : RoundTrip.Statement .rdNop3 := decode_readWord _
theorem RoundTrip.rdNop4 : RoundTrip.Statement .rdNop4 := decode_readWord _
theorem RoundTrip.rdNop5 : RoundTrip.Statement .rdNop5 := decode_readWord _
theorem RoundTrip.rdNop6 : RoundTrip.Statement .rdNop6 := decode_readWord _
theorem RoundTrip.rdNop7 : RoundTrip.Statement .rdNop7 := decode_readWord _
theorem RoundTrip.rdNop8 : RoundTrip.Statement .rdNop8 := decode_readWord _
theorem RoundTrip.rdNop9 : RoundTrip.Statement .rdNop9 := decode_readWord _
theorem RoundTrip.rdNopA : RoundTrip.Statement .rdNopA := decode_readWord _
theorem RoundTrip.rdNopC : RoundTrip.Statement .rdNopC := decode_readWord _
theorem RoundTrip.rdNopD : RoundTrip.Statement .rdNopD := decode_readWord _
theorem RoundTrip.rdNopF : RoundTrip.Statement .rdNopF := decode_readWord _
theorem RoundTrip.wrNop0 (d : Byte) : RoundTrip.Statement (.wrNop0 d) := decode_writeWord _ d
theorem RoundTrip.wrNop1 (d : Byte) : RoundTrip.Statement (.wrNop1 d) := decode_writeWord _ d
theorem RoundTrip.wrNop2 (d : Byte) : RoundTrip.Statement (.wrNop2 d) := decode_writeWord _ d
theorem RoundTrip.wrNop3 (d : Byte) : RoundTrip.Statement (.wrNop3 d) := decode_writeWord _ d
theorem RoundTrip.wrNop4 (d : Byte) : RoundTrip.Statement (.wrNop4 d) := decode_writeWord _ d
theorem RoundTrip.wrNop5 (d : Byte) : RoundTrip.Statement (.wrNop5 d) := decode_writeWord _ d
theorem RoundTrip.wrNop6 (d : Byte) : RoundTrip.Statement (.wrNop6 d) := decode_writeWord _ d
theorem RoundTrip.wrNop8 (d : Byte) : RoundTrip.Statement (.wrNop8 d) := decode_writeWord _ d
theorem RoundTrip.wrNop9 (d : Byte) : RoundTrip.Statement (.wrNop9 d) := decode_writeWord _ d
theorem RoundTrip.wrNopA (d : Byte) : RoundTrip.Statement (.wrNopA d) := decode_writeWord _ d
theorem RoundTrip.wrNopB (d : Byte) : RoundTrip.Statement (.wrNopB d) := decode_writeWord _ d
theorem RoundTrip.wrNopC (d : Byte) : RoundTrip.Statement (.wrNopC d) := decode_writeWord _ d
theorem RoundTrip.wrNopE (d : Byte) : RoundTrip.Statement (.wrNopE d) := decode_writeWord _ d
theorem RoundTrip.wrNopF (d : Byte) : RoundTrip.Statement (.wrNopF d) := decode_writeWord _ d
theorem RoundTrip.rxByte (d : Byte) : RoundTrip.Statement (.rxByte d) := decode_rxbWord d
theorem RoundTrip.reset : RoundTrip.Statement .reset := decode_rstWord

/-! ## TableRow: an event's word is covered by its row of the opcode table -/

def TableRow.Statement (i : Instr) : Prop :=
  ∃ r ∈ opcodeTable, r.mnemonic = i.mnemonic ∧ r.covers (encode i) = true

/-- A row that fixes all 16 bits covers its pattern. -/
theorem TableRow.of_read {i : Instr}
    (h : (opcodeTable.any fun r => r.mnemonic == i.mnemonic && r.covers (encode i)) = true) :
    TableRow.Statement i := by
  obtain ⟨r, hr, h⟩ := List.any_eq_true.1 h
  obtain ⟨h1, h2⟩ := Bool.and_eq_true_iff.1 h
  exact ⟨r, hr, eq_of_beq h1, h2⟩

/-- The mask of a write's row keeps its high byte, whatever the data byte. -/
theorem TableRow.writeWord_masked (off : Offset) (d : Byte) :
    Sys2Proof.writeWord off d &&& 0xFF00#16 = Sys2Proof.writeWord off 0#8 := by
  simp only [Sys2Proof.writeWord, accWord]
  ext i hi
  interval_cases i <;> simp

/-- The same for an inbound byte. -/
theorem TableRow.rxbWord_masked (d : Byte) : Sys2Proof.rxbWord d &&& 0xFF00#16 = 0x4000#16 := by
  simp only [Sys2Proof.rxbWord]
  ext i hi
  interval_cases i <;> simp

/-- A write's row. -/
theorem TableRow.of_write {i : Instr} {off : Offset} {d : Byte} (m : String) (hm : m = i.mnemonic)
    (he : encode i = Sys2Proof.writeWord off d)
    (hr : ⟨m, Sys2Proof.writeWord off 0#8, 0xFF00#16⟩ ∈ opcodeTable) : TableRow.Statement i :=
  ⟨_, hr, hm, by simp [OpcodeRow.covers, he, TableRow.writeWord_masked]⟩

theorem TableRow.rdFlagsIn : TableRow.Statement .rdFlagsIn := of_read (by decide)
theorem TableRow.rdDataIn : TableRow.Statement .rdDataIn := of_read (by decide)
theorem TableRow.wrDataOut (d : Byte) : TableRow.Statement (.wrDataOut d) :=
  of_write (off := 0xD#4) "WR_DATA_OUT" rfl rfl (by decide)
theorem TableRow.wrFlagsOut (d : Byte) : TableRow.Statement (.wrFlagsOut d) :=
  of_write (off := 0x7#4) "WR_FLAGS_OUT" rfl rfl (by decide)
theorem TableRow.rdNop0 : TableRow.Statement .rdNop0 := of_read (by decide)
theorem TableRow.rdNop1 : TableRow.Statement .rdNop1 := of_read (by decide)
theorem TableRow.rdNop2 : TableRow.Statement .rdNop2 := of_read (by decide)
theorem TableRow.rdNop3 : TableRow.Statement .rdNop3 := of_read (by decide)
theorem TableRow.rdNop4 : TableRow.Statement .rdNop4 := of_read (by decide)
theorem TableRow.rdNop5 : TableRow.Statement .rdNop5 := of_read (by decide)
theorem TableRow.rdNop6 : TableRow.Statement .rdNop6 := of_read (by decide)
theorem TableRow.rdNop7 : TableRow.Statement .rdNop7 := of_read (by decide)
theorem TableRow.rdNop8 : TableRow.Statement .rdNop8 := of_read (by decide)
theorem TableRow.rdNop9 : TableRow.Statement .rdNop9 := of_read (by decide)
theorem TableRow.rdNopA : TableRow.Statement .rdNopA := of_read (by decide)
theorem TableRow.rdNopC : TableRow.Statement .rdNopC := of_read (by decide)
theorem TableRow.rdNopD : TableRow.Statement .rdNopD := of_read (by decide)
theorem TableRow.rdNopF : TableRow.Statement .rdNopF := of_read (by decide)
theorem TableRow.wrNop0 (d : Byte) : TableRow.Statement (.wrNop0 d) :=
  of_write (off := 0x0#4) "WR_NOP_0" rfl rfl (by decide)
theorem TableRow.wrNop1 (d : Byte) : TableRow.Statement (.wrNop1 d) :=
  of_write (off := 0x1#4) "WR_NOP_1" rfl rfl (by decide)
theorem TableRow.wrNop2 (d : Byte) : TableRow.Statement (.wrNop2 d) :=
  of_write (off := 0x2#4) "WR_NOP_2" rfl rfl (by decide)
theorem TableRow.wrNop3 (d : Byte) : TableRow.Statement (.wrNop3 d) :=
  of_write (off := 0x3#4) "WR_NOP_3" rfl rfl (by decide)
theorem TableRow.wrNop4 (d : Byte) : TableRow.Statement (.wrNop4 d) :=
  of_write (off := 0x4#4) "WR_NOP_4" rfl rfl (by decide)
theorem TableRow.wrNop5 (d : Byte) : TableRow.Statement (.wrNop5 d) :=
  of_write (off := 0x5#4) "WR_NOP_5" rfl rfl (by decide)
theorem TableRow.wrNop6 (d : Byte) : TableRow.Statement (.wrNop6 d) :=
  of_write (off := 0x6#4) "WR_NOP_6" rfl rfl (by decide)
theorem TableRow.wrNop8 (d : Byte) : TableRow.Statement (.wrNop8 d) :=
  of_write (off := 0x8#4) "WR_NOP_8" rfl rfl (by decide)
theorem TableRow.wrNop9 (d : Byte) : TableRow.Statement (.wrNop9 d) :=
  of_write (off := 0x9#4) "WR_NOP_9" rfl rfl (by decide)
theorem TableRow.wrNopA (d : Byte) : TableRow.Statement (.wrNopA d) :=
  of_write (off := 0xA#4) "WR_NOP_A" rfl rfl (by decide)
theorem TableRow.wrNopB (d : Byte) : TableRow.Statement (.wrNopB d) :=
  of_write (off := 0xB#4) "WR_NOP_B" rfl rfl (by decide)
theorem TableRow.wrNopC (d : Byte) : TableRow.Statement (.wrNopC d) :=
  of_write (off := 0xC#4) "WR_NOP_C" rfl rfl (by decide)
theorem TableRow.wrNopE (d : Byte) : TableRow.Statement (.wrNopE d) :=
  of_write (off := 0xE#4) "WR_NOP_E" rfl rfl (by decide)
theorem TableRow.wrNopF (d : Byte) : TableRow.Statement (.wrNopF d) :=
  of_write (off := 0xF#4) "WR_NOP_F" rfl rfl (by decide)
theorem TableRow.rxByte (d : Byte) : TableRow.Statement (.rxByte d) :=
  ⟨⟨"RX_BYTE", 0x4000#16, 0xFF00#16⟩, by decide, rfl, by
    simp [OpcodeRow.covers, encode, TableRow.rxbWord_masked]⟩
theorem TableRow.reset : TableRow.Statement .reset := of_read (by decide)

end Sys2Proof.Laws
end

