-- ==== Sys2Proof/Laws/Step.lean ====
section
/-! SUPPORT. The inversion lemmas of the arbiter, of `runInput` and of `step`: everything a step can do. -/

namespace Sys2Proof.Machine

/-! ## The arbiter -/

/-- What `takeListener` finds: the first input that is not the HOST's, the HOST's before it left in place. -/
theorem takeListener_some {is : List Input} {j : Input} {rest : List Input} (h : takeListener is = some (j, rest)) :
    isHostInput j = false ∧ ∃ pre post, is = pre ++ j :: post ∧ rest = pre ++ post ∧
      ∀ i ∈ pre, isHostInput i = true := by
  induction is generalizing rest with
  | nil => simp [takeListener] at h
  | cons i is ih =>
    cases hi : isHostInput i
    · simp only [takeListener, hi, Bool.false_eq_true, if_false, Option.some.injEq, Prod.mk.injEq] at h
      obtain ⟨rfl, rfl⟩ := h
      exact ⟨hi, [], _, rfl, rfl, by simp⟩
    · simp only [takeListener, hi, if_true] at h
      cases ht : takeListener is with
      | none => simp [ht] at h
      | some p =>
        obtain ⟨j', rest'⟩ := p
        simp only [ht, Option.some.injEq, Prod.mk.injEq] at h
        obtain ⟨rfl, rfl⟩ := h
        obtain ⟨hj, pre, post, rfl, rfl, hpre⟩ := ih ht
        exact ⟨hj, i :: pre, post, rfl, rfl, by simpa [hi] using hpre⟩

theorem takeListener_none {is : List Input} (h : takeListener is = none) : ∀ i ∈ is, isHostInput i = true := by
  induction is with
  | nil => simp
  | cons i is ih =>
    cases hi : isHostInput i
    · simp [takeListener, hi] at h
    · cases ht : takeListener is with
      | none => simpa [hi] using ih ht
      | some p => simp [takeListener, hi, ht] at h

theorem takeListener_all_host {is : List Input} (h : ∀ i ∈ is, isHostInput i = true) : takeListener is = none := by
  cases ht : takeListener is with
  | none => rfl
  | some p =>
    obtain ⟨j, rest⟩ := p
    obtain ⟨hj, pre, post, rfl, -, -⟩ := takeListener_some ht
    have := h j (by simp)
    simp [hj] at this

theorem nextAction_idle_nil {s : State} (hp : s.hostPending = .idle) (hi : s.inputs = []) :
    nextAction s = .wait := by simp [nextAction, hp, hi]

theorem nextAction_idle_cons {s : State} {i : Input} {rest : List Input} (hp : s.hostPending = .idle)
    (hi : s.inputs = i :: rest) : nextAction s = .take i rest := by simp [nextAction, hp, hi]

/-- Everything the arbiter can decide to take: one input, the HOST inputs before it left in place; on a stalled host it
is not a HOST input, on an idle one it is the first. -/
theorem nextAction_take {s : State} {i : Input} {rest : List Input} (h : nextAction s = .take i rest) :
    ∃ pre post, s.inputs = pre ++ i :: post ∧ rest = pre ++ post ∧ (∀ j ∈ pre, isHostInput j = true) ∧
      ((s.hostPending = .idle ∧ pre = []) ∨ (s.hostPending = .stalledOnDataIn ∧ isHostInput i = false)) := by
  unfold nextAction at h
  split at h
  case h_1 => cases h
  case h_2 j js hp hi => cases h; exact ⟨[], _, hi, rfl, by simp, .inl ⟨hp, rfl⟩⟩
  case h_3 hp =>
    split at h
    · split at h
      case h_1 ht =>
        cases h
        obtain ⟨hj, pre, post, h1, h2, h3⟩ := takeListener_some ht
        exact ⟨pre, post, h1, h2, h3, .inr ⟨hp, hj⟩⟩
      case h_2 => cases h
    · split at h
      case h_1 => cases h
      case h_2 j js hi =>
        split at h
        · cases h
        · cases h; exact ⟨[], _, hi, rfl, by simp, .inr ⟨hp, Bool.eq_false_iff.2 ‹_›⟩⟩

/-- A completion is taken only when one is enabled. -/
theorem nextAction_complete {s : State} (h : nextAction s = .complete) :
    s.hostPending = .stalledOnDataIn ∧ s.card.receiveQueue ≠ [] := by
  unfold nextAction at h
  split at h
  case h_1 => cases h
  case h_2 => cases h
  case h_3 hp =>
    split at h
    · split at h <;> cases h
    · exact ⟨hp, queueIsEmpty_eq_false.1 (Bool.eq_false_iff.2 ‹_›)⟩

theorem nextAction_stalled_empty {s : State} (hp : s.hostPending = .stalledOnDataIn)
    (hq : s.card.receiveQueue = []) (hi : ∀ i ∈ s.inputs, isHostInput i = true) : nextAction s = .wait := by
  simp [nextAction, hp, hq, takeListener_all_host hi]

theorem nextAction_stalled_enabled {s : State} (hp : s.hostPending = .stalledOnDataIn)
    (hq : s.card.receiveQueue ≠ []) (hi : ∀ i rest, s.inputs = i :: rest → isHostInput i = true) :
    nextAction s = .complete := by
  cases h : s.inputs with
  | nil => simp [nextAction, hp, queueIsEmpty_eq_false.2 hq, h]
  | cons i rest => simp [nextAction, hp, queueIsEmpty_eq_false.2 hq, h, hi i rest h]

/-! ## What taking an input does -/

/-- Everything an input can do to a state. -/
inductive InputEffect (i : Input) (s : State) : State → Prop where
  /-- a HOST event on an idle host -/
  | host (hp : s.hostPending = .idle) (hi : isHostInput i = true) {t : State} (h : HostEffect s t) :
      InputEffect i s t
  /-- nothing: a held access, a completion that is not enabled, a discarded write -/
  | none : InputEffect i s s
  | enqueue (b : Byte) (hi : inboundByte i = some b) (hl : s.card.receiveQueue.length < Config.QCAP) :
      InputEffect i s (s.setQueue (s.card.receiveQueue ++ [b]))
  | drop (b : Byte) (hi : inboundByte i = some b) (hl : Config.QCAP ≤ s.card.receiveQueue.length) :
      InputEffect i s (s.warn .queueFull)
  | receiveFailure : InputEffect i s (s.warn .transportReceiveFailure)
  | completion (b : Byte) (q : List Byte) (hp : s.hostPending = .stalledOnDataIn)
      (hq : s.card.receiveQueue = b :: q) : InputEffect i s ((finishDataIn b q s).setPending .idle)
  | firmwareRead (w : FwWindow) (off : Nat) (hp : s.hostPending = .idle) :
      InputEffect i s (s.logRead (.firmware w off) (Memory.read w (s.firmware w) off))

/-- Everything taking an input can do, when it does not stop the machine. -/
theorem runInput_cases {i : Input} {s t : State} (h : runInput i s = .next t) : InputEffect i s t := by
  have host {f : State → State} (hi : isHostInput i = true) (hf : hostStep s f = .next t)
      (he : HostEffect s (f s)) : InputEffect i s t := by
    rcases hostStep_next hf with ⟨hp, rfl⟩ | ⟨-, rfl⟩
    · exact .host hp hi he
    · exact .none
  cases i with
  | event w =>
    simp only [runInput, runWord] at h
    cases hd : decode w with
    | error e => simp [hd] at h
    | ok j =>
      rw [hd] at h
      rcases exec_cases h with ⟨hj, ⟨hp, he⟩ | ⟨-, rfl⟩⟩ | ⟨b, rfl, hl, rfl⟩ | ⟨b, rfl, hl, rfl⟩
      · refine .host hp ?_ he
        cases j <;> first | exact absurd rfl (hj _) | simp only [isHostInput, hd]
      · exact .none
      · exact .enqueue b (by simp [inboundByte, hd]) hl
      · exact .drop b (by simp [inboundByte, hd]) hl
  | completion =>
    simp only [runInput, Host.Outcome.next.injEq] at h
    subst h
    rcases completeDataIn_cases s with ⟨b, q, hp, hq, he⟩ | he
    · exact he ▸ .completion b q hp hq
    · exact he.symm ▸ .none
  | receiveFailure =>
    simp only [runInput, Host.Outcome.next.injEq] at h
    exact h ▸ .receiveFailure
  | access bits off k v =>
    simp only [runInput, runAccess] at h
    split at h
    · split at h
      · rcases exec_cases h with ⟨-, ⟨hp, he⟩ | ⟨-, rfl⟩⟩ | ⟨b, hb, -⟩ | ⟨b, hb, -⟩
        · exact .host hp rfl he
        · exact .none
        · exact absurd hb (dispatch_ne_rxByte _ _ _ _)
        · exact absurd hb (dispatch_ne_rxByte _ _ _ _)
      · cases h
    · cases h
  | firmwareRead w off =>
    simp only [runInput, firmwareRead] at h
    split at h
    · rcases hostStep_next h with ⟨hp, rfl⟩ | ⟨-, rfl⟩
      · exact .firmwareRead w off hp
      · exact .none
    · cases h
  | firmwareWrite w off v =>
    simp only [runInput, firmwareWrite] at h
    split at h
    · rcases hostStep_next h with ⟨-, rfl⟩ | ⟨-, rfl⟩ <;> exact .none
    · cases h

/-- Taking an input never touches the inputs that are left. -/
theorem inputEffect_inputs {i : Input} {s t : State} (h : InputEffect i s t) : t.inputs = s.inputs := by
  cases h with
  | host hp hi h =>
    cases h with
    | dataWrite v => simp [emitTx_eq]
    | _ => rfl
  | _ => rfl

/-- A well-formed input never stops the machine (R238). -/
theorem runInput_total {i : Input} (s : State) (hi : i.wellFormed = true) : ∃ t, runInput i s = .next t := by
  have host (f : State → State) : ∃ t, hostStep s f = .next t := by
    cases hp : s.hostPending
    · exact ⟨_, hostStep_idle hp f⟩
    · exact ⟨_, hostStep_stalled hp f⟩
  cases i with
  | event w =>
    cases hd : decode w with
    | ok j => simpa only [runInput, runWord, hd] using exec_total j s
    | error e => simp [Input.wellFormed, hd, Except.isOk, Except.toBool] at hi
  | completion => exact ⟨_, rfl⟩
  | receiveFailure => exact ⟨_, rfl⟩
  | access bits off k v =>
    simp only [Input.wellFormed, Bool.and_eq_true, beq_iff_eq, decide_eq_true_eq] at hi
    simpa only [runInput, runAccess, hi.1, if_true, inRegisterWindow, decide_eq_true hi.2] using exec_total _ s
  | firmwareRead w off =>
    simp only [Input.wellFormed, decide_eq_true_eq] at hi
    simpa only [runInput, firmwareRead, hi, if_true] using host _
  | firmwareWrite w off v =>
    simp only [Input.wellFormed, decide_eq_true_eq] at hi
    simpa only [runInput, firmwareWrite, hi, if_true] using host _

/-! ## The step -/

/-- An input that is not the HOST's, at the head of the inputs, is taken whether or not a read is stalled. -/
theorem nextAction_listener_head {s : State} {i : Input} {rest : List Input} (hi : s.inputs = i :: rest)
    (hn : isHostInput i = false) : nextAction s = .take i rest := by
  unfold nextAction
  cases hp : s.hostPending <;> simp [hi, hn, takeListener]

theorem step_wait {s : State} (h : nextAction s = .wait) : step s = .next s := by simp [step, h]
theorem step_complete {s : State} (h : nextAction s = .complete) : step s = .next (completeDataIn s) := by
  simp [step, h]
theorem step_take {s : State} {i : Input} {rest : List Input} (h : nextAction s = .take i rest) :
    step s = runInput i (s.setInputs rest) := by simp [step, h]

/-- A step on an idle host takes the first input. -/
theorem step_idle_cons {s : State} {i : Input} {rest : List Input} (hp : s.hostPending = .idle)
    (hi : s.inputs = i :: rest) : step s = runInput i (s.setInputs rest) := step_take (nextAction_idle_cons hp hi)

@[simp] theorem run_zero (s : State) : run 0 s = .next s := rfl

/-- One step, then the others. -/
theorem run_succ (n : Nat) {s t : State} (h : step s = .next t) : run (n + 1) s = run n t := by
  have hc : Sys2Proof.core.step s = .next t := h
  simp only [run, Host.Core.run, hc]; rfl

/-- A run ends at the first fault. -/
theorem run_succ_fault (n : Nat) {s : State} {r : Fault} (h : step s = .fault r) : run (n + 1) s = .fault r := by
  have hc : Sys2Proof.core.step s = .fault r := h
  simp only [run, Host.Core.run, hc]; rfl

/-- A run ends at the first refusal. -/
theorem run_succ_refused (n : Nat) {s : State} {r : Refusal} (h : step s = .refused r) :
    run (n + 1) s = .refused r := by
  have hc : Sys2Proof.core.step s = .refused r := h
  simp only [run, Host.Core.run, hc]; rfl

/-- Everything a step can do: nothing, the completion of a stalled read, or the effect of the input it takes. -/
theorem step_cases {s t : State} (h : step s = .next t) :
    (nextAction s = .wait ∧ t = s) ∨
    (∃ b q, s.hostPending = .stalledOnDataIn ∧ s.card.receiveQueue = b :: q ∧
      t = (finishDataIn b q s).setPending .idle) ∨
    (∃ i rest, nextAction s = .take i rest ∧ InputEffect i (s.setInputs rest) t) := by
  cases ha : nextAction s with
  | wait => rw [step_wait ha] at h; cases h; exact .inl ⟨rfl, rfl⟩
  | complete =>
    obtain ⟨hp, hq⟩ := nextAction_complete ha
    obtain ⟨b, q, hq⟩ := List.exists_cons_of_ne_nil hq
    rw [step_complete ha, completeDataIn_enabled hp hq] at h
    cases h
    exact .inr (.inl ⟨b, q, hp, hq, rfl⟩)
  | take i rest =>
    rw [step_take ha] at h
    exact .inr (.inr ⟨i, rest, rfl, runInput_cases h⟩)

end Sys2Proof.Machine
end

