-- ==== Sys2Proof/Tests/Slice0.lean ====
section
/-! SUPPORT. The model's own tests. Expected results are the spec's: the worked examples of files 30 to 70 and the vectors
of 95_test_vectors.md, cited by section. Then one witness per statement that has hypotheses. -/

namespace Sys2Proof.Tests

open Sys2Proof.Machine

/-- A card with the given flags and queue, idle, nothing in flight. -/
def mk (out inp : Byte) (q : List Byte) : State :=
  { State.reset with card := { State.reset.card with outputFlags := out, inputFlags := inp, receiveQueue := q } }

/-- The same with a data-in read stalled. -/
def mkStalled (inp : Byte) (q : List Byte) : State := (mk 0xFF#8 inp q).setPending .stalledOnDataIn

/-- Does the outcome answer a next state with the property? -/
def answers (o : Host.Outcome State Fault Refusal) (p : State → Bool) : Bool :=
  match o with
  | .next t => p t
  | .fault _ => false
  | .refused _ => false

/-- A full receive queue. -/
@[irreducible] def fullQueue : List Byte := List.replicate 512 0x01#8
/-- A receive queue with room for one byte. -/
@[irreducible] def almostFullQueue : List Byte := List.replicate 511 0x01#8

theorem fullQueue_length : fullQueue.length = 512 := by unfold fullQueue; exact List.length_replicate ..
theorem almostFullQueue_length : almostFullQueue.length = 511 := by
  unfold almostFullQueue; exact List.length_replicate ..
theorem fullQueue_full : 512 ≤ fullQueue.length := by rw [fullQueue_length]
theorem almostFullQueue_room : almostFullQueue.length < 512 := by rw [almostFullQueue_length]; decide

/-- `input_flags`, queue and `output_flags` of a state, as 95_test_vectors.md writes them. -/
def shows (out inp : Byte) (q : List Byte) (t : State) : Bool :=
  t.card.outputFlags == out && t.card.inputFlags == inp && t.card.receiveQueue == q

/-! ## Decoding: words written out from R93 to R97 -/

theorem test_decode_register_operations :
    decode 0b0000101100000000#16 = .ok .rdFlagsIn ∧ decode 0b0000111000000000#16 = .ok .rdDataIn ∧
    decode 0b0001110101000001#16 = .ok (.wrDataOut 0x41#8) ∧
    decode 0b0001011111111101#16 = .ok (.wrFlagsOut 0xFD#8) := by decide
theorem test_decode_read_nops :
    decode 0b0000000000000000#16 = .ok .rdNop0 ∧ decode 0b0000000100000000#16 = .ok .rdNop1 ∧
    decode 0b0000001000000000#16 = .ok .rdNop2 ∧ decode 0b0000001100000000#16 = .ok .rdNop3 ∧
    decode 0b0000010000000000#16 = .ok .rdNop4 ∧ decode 0b0000010100000000#16 = .ok .rdNop5 ∧
    decode 0b0000011000000000#16 = .ok .rdNop6 ∧ decode 0b0000011100000000#16 = .ok .rdNop7 ∧
    decode 0b0000100000000000#16 = .ok .rdNop8 ∧ decode 0b0000100100000000#16 = .ok .rdNop9 ∧
    decode 0b0000101000000000#16 = .ok .rdNopA ∧ decode 0b0000110000000000#16 = .ok .rdNopC ∧
    decode 0b0000110100000000#16 = .ok .rdNopD ∧ decode 0b0000111100000000#16 = .ok .rdNopF := by decide
theorem test_decode_write_nops :
    decode 0b0001000010100101#16 = .ok (.wrNop0 0xA5#8) ∧ decode 0b0001000110100101#16 = .ok (.wrNop1 0xA5#8) ∧
    decode 0b0001001010100101#16 = .ok (.wrNop2 0xA5#8) ∧ decode 0b0001001110100101#16 = .ok (.wrNop3 0xA5#8) ∧
    decode 0b0001010010100101#16 = .ok (.wrNop4 0xA5#8) ∧ decode 0b0001010110100101#16 = .ok (.wrNop5 0xA5#8) ∧
    decode 0b0001011010100101#16 = .ok (.wrNop6 0xA5#8) ∧ decode 0b0001100010100101#16 = .ok (.wrNop8 0xA5#8) ∧
    decode 0b0001100110100101#16 = .ok (.wrNop9 0xA5#8) ∧ decode 0b0001101010100101#16 = .ok (.wrNopA 0xA5#8) ∧
    decode 0b0001101110100101#16 = .ok (.wrNopB 0xA5#8) ∧ decode 0b0001110010100101#16 = .ok (.wrNopC 0xA5#8) ∧
    decode 0b0001111010100101#16 = .ok (.wrNopE 0xA5#8) ∧ decode 0b0001111110100101#16 = .ok (.wrNopF 0xA5#8) := by decide
theorem test_decode_listener_and_reset :
    decode 0b0100000011111111#16 = .ok (.rxByte 0xFF#8) ∧ decode 0b1000000000000000#16 = .ok .reset := by decide
/-- 95_test_vectors.md 2.9, and the words named in R99. -/
theorem test_decode_refused :
    decode 0x0B01#16 = .error .readCarriesData ∧ decode 0x2000#16 = .error .reservedBitSet ∧
    decode 0x4110#16 = .error .strayBitsInRxb ∧ decode 0x5010#16 = .error .strayBitsInRxb ∧
    decode 0x8001#16 = .error .strayBitsInRst ∧ decode 0xC000#16 = .error .reservedClass := by decide
theorem test_decodeTableWord :
    decodeTableWord 16 0x1D41 = some (.wrDataOut 0x41#8) ∧ decodeTableWord 16 0xC000 = none := by decide

/-! ## Well-formedness: one ill-formed input per check -/

theorem test_wellFormed_refuses_word : Input.wellFormed (.event 0x0B01#16) = false := by decide
theorem test_wellFormed_refuses_width : Input.wellFormed (.access 16 0xE .read 0#8) = false := by decide
theorem test_wellFormed_refuses_offset : Input.wellFormed (.access 8 16 .read 0#8) = false := by decide
theorem test_wellFormed_refuses_firmware_read : Input.wellFormed (.firmwareRead .a 256) = false := by decide
theorem test_wellFormed_refuses_firmware_write : Input.wellFormed (.firmwareWrite .b 1792 0#8) = false := by decide
theorem test_wellFormed_accepts :
    Input.wellFormed (.event 0x0B00#16) = true ∧ Input.wellFormed (.access 8 15 .write 0#8) = true ∧
    Input.wellFormed (.firmwareRead .a 255) = true ∧ Input.wellFormed (.firmwareWrite .b 1791 0#8) = true := by decide

/-! ## One step each -/

/-- 2.1: the returned byte is the old one, bit 7 clears, bit 6 toggles. -/
theorem test_rdFlagsIn_nonempty :
    answers (exec .rdFlagsIn (mk 0xFF#8 0xFF#8 [0x10#8])) (fun t => shows 0xFF#8 0x3F#8 [0x10#8] t &&
      t.readLog == [⟨.register 0xB#4, 0xFF#8⟩]) = true := by decide
/-- 2.1: with the queue empty bit 7 stays. -/
theorem test_rdFlagsIn_empty :
    answers (exec .rdFlagsIn (mk 0xFF#8 0xBF#8 [])) (shows 0xFF#8 0xFF#8 []) = true := by decide
/-- 2.2: the oldest byte, and bit 7 is set although a byte is left. -/
theorem test_rdDataIn_two :
    answers (exec .rdDataIn (mk 0xFF#8 0x3F#8 [0x10#8, 0x20#8])) (fun t => shows 0xFF#8 0xBF#8 [0x20#8] t &&
      t.readLog == [⟨.register 0xE#4, 0x10#8⟩]) = true := by decide
/-- 2.2: stall; nothing returned. -/
theorem test_rdDataIn_stall :
    answers (exec .rdDataIn (mk 0xFF#8 0xFF#8 [])) (fun t => shows 0xFF#8 0xFF#8 [] t &&
      t.hostPending == .stalledOnDataIn && t.readLog == []) = true := by decide
/-- 2.3. -/
theorem test_wrDataOut :
    answers (exec (.wrDataOut 0x00#8) (mk 0xFF#8 0x7F#8 [])) (fun t => shows 0xFF#8 0x3F#8 [] t &&
      t.txLog == [0x00#8]) = true := by decide
/-- 2.4: bit 1 clear sets bit 6. -/
theorem test_wrFlagsOut_asserted :
    answers (exec (.wrFlagsOut 0xFC#8) (mk 0xFF#8 0x3F#8 [])) (shows 0xFC#8 0x7F#8 []) = true := by decide
/-- 2.4: bit 1 set clears bit 6. -/
theorem test_wrFlagsOut_deasserted :
    answers (exec (.wrFlagsOut 0xFE#8) (mk 0xFF#8 0x7F#8 [])) (shows 0xFE#8 0x3F#8 []) = true := by decide
/-- 2.5: reads of the write-only registers. -/
theorem test_rdNop7 :
    answers (exec .rdNop7 (mk 0x12#8 0x7F#8 [0x10#8])) (shows 0x12#8 0x7F#8 [0x10#8]) = true := by decide
theorem test_rdNopD :
    answers (exec .rdNopD (mk 0x12#8 0x7F#8 [0x10#8])) (fun t => shows 0x12#8 0x7F#8 [0x10#8] t && t.txLog == []) =
      true := by decide
/-- 2.5: writes of the read-only registers. -/
theorem test_wrNopB :
    answers (exec (.wrNopB 0x00#8) (mk 0x12#8 0x7F#8 [0x10#8])) (shows 0x12#8 0x7F#8 [0x10#8]) = true := by decide
theorem test_wrNopE :
    answers (exec (.wrNopE 0x55#8) (mk 0x12#8 0x7F#8 [0x10#8])) (shows 0x12#8 0x7F#8 [0x10#8]) = true := by decide
/-- R201's worked example. -/
theorem test_rxByte_kept :
    answers (exec (.rxByte 0x20#8) (mk 0xFF#8 0xBF#8 [0x10#8])) (shows 0xFF#8 0xBF#8 [0x10#8, 0x20#8]) = true := by
  decide
/-- 2.6: at 512 queued bytes the byte is dropped. -/
theorem test_rxByte_dropped :
    answers (exec (.rxByte 0x03#8) (mk 0xFF#8 0xBF#8 fullQueue)) (fun t =>
      t.card.receiveQueue.length == 512 && t.warnLog == [.queueFull]) = true := by
  have h := exec_rxByte_full (s := mk 0xFF#8 0xBF#8 fullQueue) 0x03#8 fullQueue_full
  rw [h]
  exact Bool.and_eq_true_iff.mpr ⟨beq_iff_eq.mpr fullQueue_length, rfl⟩
/-- R260's worked example; `tx_log` is kept (2.7). -/
theorem test_reset :
    answers (exec .reset ((mk 0x00#8 0x3F#8 [0x10#8, 0x20#8]).logTx 0x41#8)) (fun t => shows 0xFF#8 0xBF#8 [] t &&
      t.txLog == [0x41#8]) = true := by decide
/-- S3 row 7: the completion of a stalled read. -/
theorem test_completion : shows 0xFF#8 0xBF#8 [] (completeDataIn (mkStalled 0xBF#8 [0x30#8])) = true := by decide

/-! ## Stepping -/

theorem test_step_from_reset :
    answers (step (State.reset.withFetchWord 16 0x1700)) (shows 0x00#8 0xFF#8 []) = true := by decide
/-- A HOST word waits behind a stalled read, an inbound byte does not (R121). -/
theorem test_step_listener_passes_held_host :
    answers (step ((mkStalled 0xBF#8 []).setInputs [.event 0x0B00#16, .event 0x4030#16])) (fun t =>
      t.card.receiveQueue == [0x30#8] && t.inputs == [.event 0x0B00#16]) = true := by decide
/-- The completion comes before the waiting HOST word (R121). -/
theorem test_step_completion_first :
    answers (step ((mkStalled 0xBF#8 [0x30#8]).setInputs [.event 0x0B00#16])) (fun t =>
      t.hostPending == .idle && t.inputs == [.event 0x0B00#16] && t.card.receiveQueue == []) = true := by decide
/-- R202's partial datagram starts as two words. -/
theorem test_rxd : rxd [0x01#8, 0x02#8] = [.event 0x4001#16, .event 0x4002#16] := by decide

/-! ## Witnesses: the hypotheses of every statement can be met -/

theorem witness_EncodeOfDecodeIsTheWord : decode 0x1FFF#16 = .ok (.wrNopF 0xFF#8) := by decide
theorem witness_DecoderAgreesWithOpcodeTable :
    decode 0x0F00#16 = .ok .rdNopF ∧
    (⟨"RX_BYTE", 0x4000#16, 0xFF00#16⟩ : OpcodeRow) ∈ opcodeTable ∧
    (⟨"RX_BYTE", 0x4000#16, 0xFF00#16⟩ : OpcodeRow).covers 0x40FF#16 = true := by decide
theorem witness_DispatchFollowsRegisterMap :
    (0xA#4 ≠ 0xB#4 ∧ 0xA#4 ≠ 0xE#4) ∧ (0xF#4 ≠ 0xB#4 ∧ 0xF#4 ≠ 0xE#4) ∧ (0x8#4 ≠ 0x7#4 ∧ 0x8#4 ≠ 0xD#4) ∧
    (0xE#4 ≠ 0x7#4 ∧ 0xE#4 ≠ 0xD#4) := by decide
theorem witness_StepRunsTheDecodedEvent_idle :
    ((mk 0xFF#8 0xBF#8 []).setInputs [.event 0x0B00#16]).hostPending = .idle ∧
    ((mk 0xFF#8 0xBF#8 []).setInputs [.event 0x0B00#16]).inputs = .event 0x0B00#16 :: [] ∧
    decode 0x0B00#16 = .ok .rdFlagsIn := by decide
theorem witness_StepRunsTheDecodedEvent_stalled :
    ((mkStalled 0xBF#8 []).setInputs [.event 0x4000#16]).inputs = .event 0x4000#16 :: [] ∧
    decode 0x4000#16 = .ok (.rxByte 0x00#8) := by decide
theorem witness_StepRunsTheDecodedEvent_fetch :
    State.reset.hostPending = .idle ∧ decodeTableWord 16 0x8000 = some .reset := by decide
theorem witness_StepRefusesWordsThatSpellNoEvent :
    ((mkStalled 0xBF#8 []).setInputs [.event 0xC000#16]).inputs = .event 0xC000#16 :: [] ∧
    decode 0xC000#16 = .error .reservedClass := by decide
theorem witness_OnlyByteAccessesWithinAWindow :
    (9 ≠ 8) ∧ (16 ≤ 16) ∧ (256 ≤ 256) ∧ (1792 ≤ 1792) := by decide
theorem witness_IdleCardWaitsForAnEvent : State.reset.hostPending = .idle ∧ State.reset.inputs = [] := by decide
theorem witness_EachAgentsInputsAreTakenInOrder_host :
    answers (step ((mk 0xFF#8 0xBF#8 []).setInputs [.event 0x0B00#16, .event 0x4030#16])) (fun t =>
      t.inputs == [.event 0x4030#16]) = true := by decide
theorem witness_EachAgentsInputsAreTakenInOrder_listener :
    answers (step ((mkStalled 0xBF#8 []).setInputs [.event 0x0B00#16, .event 0x4030#16, .event 0x4031#16])) (fun t =>
      t.inputs == [.event 0x0B00#16, .event 0x4031#16]) = true := by decide
theorem witness_EachAgentsInputsAreTakenInOrder_none :
    answers (step ((mkStalled 0xBF#8 [0x30#8]).setInputs [.event 0x0B00#16])) (fun t =>
      t.inputs == [.event 0x0B00#16]) = true := by decide
theorem witness_HostIsHeldWhileAReadIsStalled :
    (mkStalled 0xBF#8 []).hostPending = .stalledOnDataIn ∧ (∀ b, Instr.reset ≠ .rxByte b) ∧
    ((mkStalled 0xBF#8 []).setInputs [.event 0x8000#16]).card.receiveQueue = [] ∧
    (∀ i ∈ ((mkStalled 0xBF#8 []).setInputs [.event 0x8000#16]).inputs, isHostInput i = true) := by decide
theorem witness_StalledReadCompletesFirst_host :
    (mkStalled 0xBF#8 [0x30#8]).hostPending = .stalledOnDataIn ∧
    (mkStalled 0xBF#8 [0x30#8]).card.receiveQueue = 0x30#8 :: [] ∧
    (∀ i rest, ((mkStalled 0xBF#8 [0x30#8]).setInputs [.event 0x0B00#16]).inputs = i :: rest →
      isHostInput i = true) := by
  refine ⟨rfl, rfl, fun i rest h => ?_⟩
  simp only [setInputs_inputs, List.cons.injEq] at h
  rw [← h.1]; decide
theorem witness_StalledReadCompletesFirst_marker :
    ((mkStalled 0xBF#8 [0x30#8]).setInputs [.completion, .event 0x4001#16]).inputs =
      .completion :: [.event 0x4001#16] := rfl
theorem witness_InboundByteLiftsTheStall :
    (mkStalled 0xBF#8 []).hostPending = .stalledOnDataIn ∧ (mkStalled 0xBF#8 []).card.receiveQueue = [] ∧
    ((mkStalled 0xBF#8 []).setInputs [.event 0x0B00#16, .event 0x4030#16]).inputs =
      [.event 0x0B00#16] ++ .event (rxbWord 0x30#8) :: [] ∧
    (∀ i ∈ [Input.event 0x0B00#16] ++ [], isHostInput i = true) := by decide
theorem witness_DataReadOnEmptyQueueHangsForEver :
    ((mk 0xFF#8 0xBF#8 []).setInputs [.event 0x0E00#16, .event 0x0B00#16]).hostPending = .idle ∧
    ((mk 0xFF#8 0xBF#8 []).setInputs [.event 0x0E00#16, .event 0x0B00#16]).card.receiveQueue = [] ∧
    (∀ i ∈ [Input.event 0x0B00#16], isHostInput i = true) := by decide
theorem witness_StatusReadEffect : (mk 0xFF#8 0xBF#8 [0x10#8]).hostPending = .idle := rfl
theorem witness_DataReadEffect :
    ((mk 0xFF#8 0x3F#8 [0x10#8]).hostPending = .idle ∧ (mk 0xFF#8 0x3F#8 [0x10#8]).card.receiveQueue = 0x10#8 :: []) ∧
    ((mk 0xFF#8 0xBF#8 []).hostPending = .idle ∧ (mk 0xFF#8 0xBF#8 []).card.receiveQueue = []) ∧
    ((mkStalled 0xBF#8 [0x30#8]).hostPending = .stalledOnDataIn ∧
      (mkStalled 0xBF#8 [0x30#8]).card.receiveQueue = 0x30#8 :: []) ∧
    ((mkStalled 0xBF#8 []).hostPending = .stalledOnDataIn ∧ (mkStalled 0xBF#8 []).card.receiveQueue = []) ∧
    (∀ b, Instr.rdDataIn ≠ .rxByte b) := by decide
theorem witness_DataWriteEffect : (mk 0xFF#8 0xFF#8 []).hostPending = .idle := rfl
theorem witness_FlagsWriteEffect : (mk 0x00#8 0x3F#8 [0x10#8]).hostPending = .idle := rfl
theorem witness_ReadNopEffect : (mk 0x12#8 0x7F#8 [0x10#8]).hostPending = .idle := rfl
theorem witness_WriteNopEffect : (mk 0x12#8 0x7F#8 [0x10#8]).hostPending = .idle := rfl
theorem witness_InboundByteEffect :
    (mk 0xFF#8 0xBF#8 almostFullQueue).card.receiveQueue.length < 512 ∧
    512 ≤ (mk 0xFF#8 0xBF#8 fullQueue).card.receiveQueue.length := ⟨almostFullQueue_room, fullQueue_full⟩
theorem witness_ResetEventEffect : (mk 0x00#8 0x3F#8 [0x10#8, 0x20#8]).hostPending = .idle := rfl
theorem witness_ReceiveFailureEffect :
    ((mkStalled 0xBF#8 [0x30#8]).setInputs [.receiveFailure]).inputs = .receiveFailure :: [] := rfl
theorem witness_FirmwareAccessEffect : State.reset.hostPending = .idle ∧ (255 < 256) ∧ (1791 < 1792) := by decide

theorem witness_ReceiveRequestChangesOnlyAsStated :
    answers (step ((mk 0xFF#8 0xBF#8 [0x10#8]).setInputs [.event 0x0B00#16])) (fun t =>
      t.card.inputFlags.getLsbD 7 != (mk 0xFF#8 0xBF#8 [0x10#8]).card.inputFlags.getLsbD 7) = true ∧
    answers (step ((mk 0xFF#8 0x3F#8 [0x10#8]).setInputs [.event 0x0E00#16])) (fun t =>
      t.card.inputFlags.getLsbD 7 != (mk 0xFF#8 0x3F#8 [0x10#8]).card.inputFlags.getLsbD 7) = true ∧
    answers (step ((mk 0xFF#8 0x3F#8 [0x10#8]).setInputs [.event 0x8000#16])) (fun t =>
      t.card.inputFlags.getLsbD 7 != (mk 0xFF#8 0x3F#8 [0x10#8]).card.inputFlags.getLsbD 7) = true := by decide
theorem witness_SendConfirmChangesOnlyAsStated :
    answers (exec (.wrFlagsOut 0x00#8) (mk 0xFF#8 0xBF#8 [])) (fun t =>
      t.card.inputFlags.getLsbD 6 != (mk 0xFF#8 0xBF#8 []).card.inputFlags.getLsbD 6) = true ∧
    (mk 0xFF#8 0xBF#8 []).hostPending = .idle := by decide
theorem witness_OutputFlagsAndTransmitHaveOneWriter :
    answers (exec (.wrFlagsOut 0x00#8) (mk 0xFF#8 0xBF#8 [])) (fun t => t.card.outputFlags != 0xFF#8) = true ∧
    answers (exec (.wrDataOut 0x41#8) (mk 0xFF#8 0xBF#8 [])) (fun t => t.txLog != []) = true := by decide
theorem witness_QueueChangesOnlyAtItsEnds :
    answers (step ((mk 0xFF#8 0xBF#8 [0x10#8]).setInputs [.event 0x0E00#16])) (fun t => t.card.receiveQueue == []) =
      true ∧ (mk 0xFF#8 0xBF#8 [0x10#8]).card.receiveQueue.length ≤ 512 := by decide
theorem witness_DiagnosticEventsHaveTheirCauses :
    answers (exec (.rxByte 0x03#8) (mk 0xFF#8 0xBF#8 fullQueue)) (fun t => t.warnLog == [.queueFull]) = true := by
  have h := exec_rxByte_full (s := mk 0xFF#8 0xBF#8 fullQueue) 0x03#8 fullQueue_full
  rw [h]; rfl
theorem witness_StepsKeepWhatConstructionFixed :
    answers (step ((mk 0xFF#8 0xBF#8 []).setInputs [.event 0x1D41#16])) (fun t => t.txLog == [0x41#8]) = true := by
  decide

/-- An ordinary state meets the invariant. -/
theorem inv_mk_available : Inv (mk 0xFF#8 0x3F#8 [0x10#8]) :=
  ⟨by decide, by decide, by decide, by decide, rfl, rfl⟩
theorem witness_StepKeepsTheInvariant :
    Inv ((mk 0xFF#8 0x3F#8 [0x10#8]).setInputs [.event 0x0E00#16]) ∧
    answers (step ((mk 0xFF#8 0x3F#8 [0x10#8]).setInputs [.event 0x0E00#16])) (shows 0xFF#8 0xBF#8 []) = true :=
  ⟨⟨by decide, by decide, by decide, by decide, rfl, rfl⟩, by decide⟩
theorem witness_StatusReadReturnsOneOfFourBytes :
    Inv (mk 0xFF#8 0x3F#8 [0x10#8]) ∧ (mk 0xFF#8 0x3F#8 [0x10#8]).hostPending = .idle := ⟨inv_mk_available, rfl⟩
theorem witness_DataReadNeverStallsAfterAvailable :
    Inv (mk 0xFF#8 0x3F#8 [0x10#8]) ∧ (mk 0xFF#8 0x3F#8 [0x10#8]).hostPending = .idle ∧
    (mk 0xFF#8 0x3F#8 [0x10#8]).card.inputFlags.getLsbD 7 = false := ⟨inv_mk_available, rfl, by decide⟩

theorem witness_MeaningfulInputsNeverStopTheCard :
    InputsWellFormed ((mk 0xFF#8 0xBF#8 []).setInputs [.event 0x0E00#16, .event 0x4030#16, .firmwareRead .b 1791]) := by
  intro i hi
  simp only [setInputs_inputs, List.mem_cons, List.not_mem_nil, or_false] at hi
  rcases hi with rfl | rfl | rfl <;> decide
theorem witness_BytesAreDeliveredInArrivalOrder :
    (∀ i ∈ ((mk 0xFF#8 0xBF#8 []).setInputs [.event 0x4010#16, .event 0x0E00#16]).inputs, isResetInput i = false) ∧
    answers (run 2 ((mk 0xFF#8 0xBF#8 []).setInputs [.event 0x4010#16, .event 0x0E00#16])) (fun t =>
      delivered t == [0x10#8]) = true := by decide
theorem witness_DataReadsReturnTheQueueInOrder :
    (mk 0xFF#8 0xBF#8 [0x10#8, 0x20#8]).card.receiveQueue = [0x10#8, 0x20#8] ++ [] ∧
    ((mk 0xFF#8 0xBF#8 [0x10#8, 0x20#8]).setInputs [.event 0x0E00#16, .event 0x0E00#16]).inputs =
      List.replicate [0x10#8, 0x20#8].length (.event 0x0E00#16) ++ [] := by decide
theorem witness_DataWritesAreSentInOrder :
    ((mk 0xFF#8 0xBF#8 []).setInputs [.event 0x1D00#16, .event 0x1DFF#16]).hostPending = .idle ∧
    ((mk 0xFF#8 0xBF#8 []).setInputs [.event 0x1D00#16, .event 0x1DFF#16]).inputs =
      [0x00#8, 0xFF#8].map (fun v => .event (writeWord 0xD#4 v)) ++ [] ∧
    answers (run 2 ((mk 0xFF#8 0xBF#8 []).setInputs [.event 0x1D00#16, .access 8 13 .write 0xFF#8])) (fun t =>
      t.txLog == [0x00#8, 0xFF#8] && writtenBytes t.inputs == []) = true := by decide
theorem witness_DatagramIsKeptUpToTheRoomLeft :
    ((mkStalled 0xBF#8 []).setInputs [.event 0x4001#16, .event 0x4002#16]).inputs = rxd [0x01#8, 0x02#8] ++ [] := by
  decide
theorem witness_SimultaneousEventsDifferInThreeCases :
    (mk 0xFF#8 0xBF#8 []).hostPending = .idle ∧ (∀ c, Instr.rdFlagsIn ≠ .rxByte c) ∧
    (mk 0xFF#8 0xBF#8 []).card.receiveQueue = [] ∧ (mk 0xFF#8 0xBF#8 []).card.inputFlags.getLsbD 7 = true ∧
    (mk 0xFF#8 0xBF#8 fullQueue).card.receiveQueue.length = 512 :=
  ⟨rfl, by decide, rfl, by decide, fullQueue_length⟩
theorem witness_AvailableAppearsOneReadLate :
    (mk 0xFF#8 0xBF#8 []).card.inputFlags.getLsbD 7 = true ∧
    ((mk 0xFF#8 0xBF#8 []).setInputs [.event 0x4010#16, .event 0x0B00#16, .event 0x0B00#16]).inputs =
      .event (rxbWord 0x10#8) :: .event 0x0B00#16 :: .event 0x0B00#16 :: [] := by decide
theorem witness_SendConfirmAlternatesUnderPolling :
    ((mk 0xFF#8 0xBF#8 []).setInputs [.event 0x0B00#16, .event 0x0B00#16]).inputs =
      List.replicate 2 (.event 0x0B00#16) ++ [] := by decide
theorem witness_TwoStatusReadsOnEmptyQueue :
    (mk 0xFF#8 0xBF#8 []).hostPending = .idle ∧ (mk 0xFF#8 0xBF#8 []).card.receiveQueue = [] := ⟨rfl, rfl⟩
theorem witness_QueuePrimitivesAsStated :
    almostFullQueue.length < 512 ∧ 512 ≤ fullQueue.length := ⟨almostFullQueue_room, fullQueue_full⟩
theorem witness_PopulatedByteReadsBack : 255 < FwWindow.a.size ∧ 1791 < FwWindow.b.size ∧ 254 ≠ 255 := by decide
theorem witness_ConstructedCardServesTheImage :
    ∃ s, construct ⟨Config.peerHost, Config.peerPort⟩ (some ⟨[0x01#8], [0x02#8]⟩) true = .ok s := ⟨_, rfl⟩

end Sys2Proof.Tests
end

section
/-! The inversion of `exec` by event: `exec_cases` says what an event can do, and this says which event does it. -/

namespace Sys2Proof.Machine

/-- The opcode table's rows by meaning: the four register operations, RESET, the inbound byte, and the accesses with no
operation: a draw at their offset (R160), or nothing at all (R161). -/
inductive EventKind : Instr → Prop where
  | statusRead : EventKind .rdFlagsIn
  | dataRead : EventKind .rdDataIn
  | dataWrite (v : Byte) : EventKind (.wrDataOut v)
  | flagsWrite (v : Byte) : EventKind (.wrFlagsOut v)
  | reset : EventKind .reset
  | inboundByte (b : Byte) : EventKind (.rxByte b)
  | nopRead (i : Instr) (off : Offset) (h : ∀ s, exec i s = readNop off s) : EventKind i
  | nopWrite (i : Instr) (h : ∀ s, exec i s = hostStep s id) : EventKind i

theorem eventKind (i : Instr) : EventKind i := by
  cases i
  case rdFlagsIn => exact .statusRead
  case rdDataIn => exact .dataRead
  case wrDataOut v => exact .dataWrite v
  case wrFlagsOut v => exact .flagsWrite v
  case reset => exact .reset
  case rxByte b => exact .inboundByte b
  case rdNop0 | rdNop1 | rdNop2 | rdNop3 | rdNop4 | rdNop5 | rdNop6 | rdNop7 | rdNop8 | rdNop9 | rdNopA | rdNopC
      | rdNopD | rdNopF =>
    exact .nopRead _ _ fun _ => rfl
  case wrNop0 v | wrNop1 v | wrNop2 v | wrNop3 v | wrNop4 v | wrNop5 v | wrNop6 v | wrNop8 v | wrNop9 v | wrNopA v
      | wrNopB v | wrNopC v | wrNopE v | wrNopF v =>
    exact .nopWrite _ fun _ => rfl

/-- Everything a named event can do to a state. -/
inductive EventEffect (s : State) : Instr → State → Prop where
  | statusRead (hp : s.hostPending = .idle) :
      EventEffect s .rdFlagsIn ((s.logRead (.register Config.OFF_FLAGS_IN) s.card.inputFlags).setInputFlags
        (statusReadFlags s.card.inputFlags (!queueIsEmpty s.card.receiveQueue)))
  | dataRead (b : Byte) (q : List Byte) (hp : s.hostPending = .idle) (hq : s.card.receiveQueue = b :: q) :
      EventEffect s .rdDataIn (finishDataIn b q s)
  | dataStall (hp : s.hostPending = .idle) (hq : s.card.receiveQueue = []) :
      EventEffect s .rdDataIn (s.setPending .stalledOnDataIn)
  | dataWrite (v : Byte) (hp : s.hostPending = .idle) :
      EventEffect s (.wrDataOut v) ((emitTx v s).setInputFlags (dataWriteFlags s.card.inputFlags))
  | flagsWrite (v : Byte) (hp : s.hostPending = .idle) :
      EventEffect s (.wrFlagsOut v) ((s.setOutputFlags v).setInputFlags (flagsWriteFlags s.card.inputFlags v))
  | reset (hp : s.hostPending = .idle) : EventEffect s .reset { s with card := resetCard s.card }
  | nopRead (i : Instr) (off : Offset) (hp : s.hostPending = .idle) :
      EventEffect s i ((s.logRead (.register off) (Config.busByte s.drawCount)).draw)
  /-- a HOST event held while a read is stalled, or a write with no operation -/
  | unchanged (i : Instr) : EventEffect s i s
  | enqueue (b : Byte) (hl : s.card.receiveQueue.length < Config.QCAP) :
      EventEffect s (.rxByte b) (s.setQueue (s.card.receiveQueue ++ [b]))
  | drop (b : Byte) (hl : Config.QCAP ≤ s.card.receiveQueue.length) :
      EventEffect s (.rxByte b) (s.warn .queueFull)

/-- What the event does on an idle host, an inbound byte in every state. -/
theorem exists_eventEffect {i : Instr} {s : State} (h : s.hostPending = .idle ∨ ∃ b, i = .rxByte b) :
    ∃ t, exec i s = .next t ∧ EventEffect s i t := by
  by_cases hb : ∃ b, i = .rxByte b
  · obtain ⟨b, rfl⟩ := hb
    rcases Nat.lt_or_ge s.card.receiveQueue.length Config.QCAP with hl | hl
    · exact ⟨_, exec_rxByte_room b hl, .enqueue b hl⟩
    · exact ⟨_, exec_rxByte_full b hl, .drop b hl⟩
  · have hp : s.hostPending = .idle := h.resolve_right hb
    cases eventKind i with
    | statusRead => exact ⟨_, exec_rdFlagsIn hp, .statusRead hp⟩
    | dataRead =>
      cases hq : s.card.receiveQueue with
      | nil => exact ⟨_, exec_rdDataIn_nil hp hq, .dataStall hp hq⟩
      | cons b q => exact ⟨_, exec_rdDataIn_cons hp hq, .dataRead b q hp hq⟩
    | dataWrite v => exact ⟨_, exec_wrDataOut v hp, .dataWrite v hp⟩
    | flagsWrite v => exact ⟨_, exec_wrFlagsOut v hp, .flagsWrite v hp⟩
    | reset => exact ⟨_, exec_reset hp, .reset hp⟩
    | inboundByte b => exact absurd ⟨b, rfl⟩ hb
    | nopRead i off h => exact ⟨_, (h s).trans (readNop_idle off hp), .nopRead i off hp⟩
    | nopWrite i h => exact ⟨_, (h s).trans (hostStep_idle hp id), .unchanged i⟩

/-- The inversion lemma of `exec` that keeps the event's name. -/
theorem exec_effect {i : Instr} {s t : State} (h : exec i s = .next t) : EventEffect s i t := by
  by_cases hi : s.hostPending = .idle ∨ ∃ b, i = .rxByte b
  · obtain ⟨u, hu, he⟩ := exists_eventEffect hi
    cases h.symm.trans hu
    exact he
  · obtain ⟨hp, hb⟩ := not_or.1 hi
    have hp : s.hostPending = .stalledOnDataIn := by
      cases hs : s.hostPending
      · exact absurd hs hp
      · rfl
    cases h.symm.trans (exec_held (fun b hb' => hb ⟨b, hb'⟩) hp)
    exact .unchanged i

end Sys2Proof.Machine
end

section
/-! The invariant (R27, R38, R39, R121 (e), R165): what each operation needs to keep it, then every step. -/

namespace Sys2Proof.Machine

/-- The invariant speaks of the card, the stalled access and the firmware memory only. -/
theorem Inv.of_same {s t : State} (hs : Inv s) (hc : t.card = s.card) (hp : t.hostPending = s.hostPending)
    (ha : t.fwA = s.fwA) (hb : t.fwB = s.fwB) : Inv t where
  lowFlags := hc ▸ hs.lowFlags
  available := hc ▸ hs.available
  bounded := hc ▸ hs.bounded
  stalled := hc ▸ hp ▸ hs.stalled
  fwA := ha ▸ hs.fwA
  fwB := hb ▸ hs.fwB

theorem Inv.setInputs {s : State} (hs : Inv s) (is : List Input) : Inv (s.setInputs is) :=
  hs.of_same rfl rfl rfl rfl

/-- A flag update that keeps bits 5:0 and leaves bit 7 as R39 and R121 (e) have it keeps the invariant. -/
theorem Inv.setInputFlags {s : State} {f : Byte} (hs : Inv s) (hlow : f &&& 0x3F#8 = s.card.inputFlags &&& 0x3F#8)
    (havail : receiveRequest f = false → s.card.receiveQueue ≠ [])
    (hstall : s.hostPending = .stalledOnDataIn → receiveRequest f = true) : Inv (s.setInputFlags f) :=
  { hs with lowFlags := hlow.trans hs.lowFlags, available := havail, stalled := hstall }

/-- A flag update of bit 6 alone keeps the invariant. -/
theorem Inv.setInputFlags_of_receiveRequest {s : State} {f : Byte} (hs : Inv s)
    (hlow : f &&& 0x3F#8 = s.card.inputFlags &&& 0x3F#8)
    (hreq : receiveRequest f = receiveRequest s.card.inputFlags) : Inv (s.setInputFlags f) :=
  hs.setInputFlags hlow (hreq ▸ hs.available) (hreq ▸ hs.stalled)

/-- R39 read backwards: with the queue empty bit 7 is set. -/
theorem Inv.receiveRequest_of_empty {s : State} (hs : Inv s) (hq : s.card.receiveQueue = []) :
    receiveRequest s.card.inputFlags = true :=
  (Bool.not_eq_false _).mp fun h => hs.available h hq

theorem Inv.finishDataIn {s : State} {b : Byte} {q : List Byte} (hs : Inv s)
    (hq : s.card.receiveQueue = b :: q) : Inv (finishDataIn b q s) where
  lowFlags := by simpa using hs.lowFlags
  available := by simp
  bounded := by
    have hlen : q.length + 1 ≤ Config.QCAP := by simpa [hq] using hs.bounded
    exact Nat.le_of_succ_le hlen
  stalled := by simp
  fwA := hs.fwA
  fwB := hs.fwB

theorem Inv.setPending_idle {s : State} (hs : Inv s) : Inv (s.setPending .idle) :=
  { hs with stalled := by simp }

theorem Inv.setPending_stalled {s : State} (hs : Inv s) (hq : s.card.receiveQueue = []) :
    Inv (s.setPending .stalledOnDataIn) :=
  { hs with stalled := fun _ => hs.receiveRequest_of_empty hq }

theorem Inv.enqueue {s : State} (hs : Inv s) (b : Byte) (hl : s.card.receiveQueue.length < Config.QCAP) :
    Inv (s.setQueue (s.card.receiveQueue ++ [b])) :=
  { hs with
    available := by simp
    bounded := by simpa using hl }

theorem Inv.statusRead {s : State} (hs : Inv s) (hp : s.hostPending = .idle) :
    Inv ((s.logRead (.register Config.OFF_FLAGS_IN) s.card.inputFlags).setInputFlags
      (statusReadFlags s.card.inputFlags (!queueIsEmpty s.card.receiveQueue))) := by
  have hlog : Inv (s.logRead (.register Config.OFF_FLAGS_IN) s.card.inputFlags) := hs.of_same rfl rfl rfl rfl
  refine hlog.setInputFlags (low_statusReadFlags _ _) (fun hclear hq => ?_) (by simp [hp])
  rw [logRead_receiveQueue] at hq
  simp [hq, hs.receiveRequest_of_empty hq] at hclear

theorem low_rstInputFlags : Config.RST_INPUT_FLAGS &&& 0x3F#8 = 0x3F#8 := by decide
theorem receiveRequest_rstInputFlags : receiveRequest Config.RST_INPUT_FLAGS = true := by decide
theorem sendConfirm_rstInputFlags : sendConfirm Config.RST_INPUT_FLAGS = false := by decide

/-- R37, R260: the reset values meet every clause that speaks of the card. -/
theorem Inv.reset {s : State} (hs : Inv s) (hp : s.hostPending = .idle) : Inv { s with card := resetCard s.card } :=
  { hs with
    lowFlags := low_rstInputFlags
    available := fun h => absurd (h.symm.trans receiveRequest_rstInputFlags) Bool.false_ne_true
    bounded := Nat.zero_le _
    stalled := by simp [hp] }

theorem hostEffect_keeps_inv {s t : State} (hs : Inv s) (hp : s.hostPending = .idle) (he : HostEffect s t) :
    Inv t := by
  cases he with
  | statusRead => exact hs.statusRead hp
  | dataRead b q hq => exact hs.finishDataIn hq
  | dataStall hq => exact hs.setPending_stalled hq
  | dataWrite v =>
    have htx : Inv (emitTx v s) := hs.of_same rfl rfl rfl rfl
    exact htx.setInputFlags_of_receiveRequest (low_dataWriteFlags _) (receiveRequest_dataWriteFlags _)
  | flagsWrite v =>
    have hout : Inv (s.setOutputFlags v) := { hs with }
    exact hout.setInputFlags_of_receiveRequest (low_flagsWriteFlags _ v) (receiveRequest_flagsWriteFlags _ v)
  | nopRead off _ _ => exact hs.of_same rfl rfl rfl rfl
  | nopWrite => exact hs
  | reset => exact hs.reset hp

theorem inputEffect_keeps_inv {i : Input} {s t : State} (hs : Inv s) (he : InputEffect i s t) : Inv t := by
  cases he with
  | host hp _ h => exact hostEffect_keeps_inv hs hp h
  | none => exact hs
  | enqueue b _ hl => exact hs.enqueue b hl
  | drop | receiveFailure | firmwareRead => exact hs.of_same rfl rfl rfl rfl
  | completion b q _ hq => exact (hs.finishDataIn hq).setPending_idle

/-- Settles O33: the completion and every input taken keep the invariant, so every step does. -/
theorem stepKeepsTheInvariant : Obligations.StepKeepsTheInvariant := by
  intro s t hs hstep
  rcases step_cases hstep with ⟨-, rfl⟩ | ⟨b, q, -, hq, rfl⟩ | ⟨i, rest, -, he⟩
  · exact hs
  · exact (hs.finishDataIn hq).setPending_idle
  · exact inputEffect_keeps_inv (hs.setInputs rest) he

/-- Settles O32: the reset values are the spec's numerals, and each clause of the invariant holds of them. -/
theorem resetStateMeetsTheInvariant : Obligations.ResetStateMeetsTheInvariant :=
  ⟨rfl, rfl, rfl, rfl, rfl, rfl,
    { lowFlags := low_rstInputFlags
      available := fun h => absurd (h.symm.trans receiveRequest_rstInputFlags) Bool.false_ne_true
      bounded := Nat.zero_le _
      stalled := fun h => nomatch h
      fwA := rfl
      fwB := rfl }⟩

/-- Bits 5:0 read as 1 exactly in the four values of R38. -/
theorem mem_four_of_low : ∀ f : Byte, f &&& 0x3F#8 = 0x3F#8 → f ∈ [0x3F#8, 0x7F#8, 0xBF#8, 0xFF#8] := by decide

/-- Settles O34: the flags before and after the read both meet the invariant's clause on bits 5:0. -/
theorem statusReadReturnsOneOfFourBytes : Obligations.StatusReadReturnsOneOfFourBytes := by
  intro s hs hp
  have hafter : Inv _ := hs.statusRead hp
  exact ⟨s.card.inputFlags, _, mem_four_of_low _ hs.lowFlags, exec_rdFlagsIn hp, rfl,
    mem_four_of_low _ hafter.lowFlags⟩

end Sys2Proof.Machine
end

section
/-! R41: `output_flags` cannot be observed. Every layer, from the host's turn to the run, ends alike from two states
that differ in `output_flags` only. -/

namespace Sys2Proof.Machine

/-- Both outcomes stop for the same reason, or both answer a next state and these differ in `output_flags` at most. -/
def EndAlike (o o' : Host.Outcome State Fault Refusal) : Prop :=
  (∃ t v, o = .next t ∧ o' = .next (t.setOutputFlags v)) ∨
  (∃ r, o = .fault r ∧ o' = .fault r) ∨ (∃ r, o = .refused r ∧ o' = .refused r)

theorem EndAlike.next (t : State) (v : Byte) : EndAlike (.next t) (.next (t.setOutputFlags v)) :=
  .inl ⟨t, v, rfl, rfl⟩
theorem EndAlike.fault (r : Fault) : EndAlike (.fault r) (.fault r) := .inr (.inl ⟨r, rfl, rfl⟩)
theorem EndAlike.refused (r : Refusal) : EndAlike (.refused r) (.refused r) := .inr (.inr ⟨r, rfl, rfl⟩)

theorem hostStep_endAlike {s : State} {v : Byte} {f : State → State}
    (hf : ∃ v', f (s.setOutputFlags v) = (f s).setOutputFlags v') :
    EndAlike (hostStep s f) (hostStep (s.setOutputFlags v) f) := by
  cases hp : s.hostPending
  · obtain ⟨v', hf⟩ := hf
    rw [hostStep_idle hp, hostStep_idle (s := s.setOutputFlags v) hp, hf]
    exact .next _ v'
  · rw [hostStep_stalled hp, hostStep_stalled (s := s.setOutputFlags v) hp]
    exact .next _ v

theorem completeDataIn_setOutputFlags (s : State) (v : Byte) :
    completeDataIn (s.setOutputFlags v) = (completeDataIn s).setOutputFlags v := by
  cases hp : s.hostPending
  · rw [completeDataIn_idle hp, completeDataIn_idle (s := s.setOutputFlags v) hp]
  · cases hq : s.card.receiveQueue with
    | nil => rw [completeDataIn_empty hq, completeDataIn_empty (s := s.setOutputFlags v) hq]
    | cons b q =>
      rw [completeDataIn_enabled hp hq, completeDataIn_enabled (s := s.setOutputFlags v) hp hq]
      rfl

theorem execRdDataIn_endAlike (s : State) (v : Byte) :
    EndAlike (execRdDataIn s) (execRdDataIn (s.setOutputFlags v)) := by
  refine hostStep_endAlike ⟨v, ?_⟩
  cases hq : s.card.receiveQueue <;> simp only [setOutputFlags_receiveQueue, hq] <;> rfl

theorem execRxByte_endAlike (b : Byte) (s : State) (v : Byte) :
    EndAlike (exec (.rxByte b) s) (exec (.rxByte b) (s.setOutputFlags v)) := by
  rcases Nat.lt_or_ge s.card.receiveQueue.length Config.QCAP with hl | hl
  · rw [exec_rxByte_room b hl, exec_rxByte_room (s := s.setOutputFlags v) b hl]
    exact .next _ v
  · rw [exec_rxByte_full b hl, exec_rxByte_full (s := s.setOutputFlags v) b hl]
    exact .next _ v

theorem exec_endAlike (i : Instr) (s : State) (v : Byte) :
    EndAlike (exec i s) (exec i (s.setOutputFlags v)) := by
  cases eventKind i with
  | statusRead =>
    show EndAlike (execRdFlagsIn s) (execRdFlagsIn (s.setOutputFlags v))
    exact hostStep_endAlike ⟨v, rfl⟩
  | dataRead => exact execRdDataIn_endAlike s v
  | dataWrite w =>
    show EndAlike (execWrDataOut w s) (execWrDataOut w (s.setOutputFlags v))
    exact hostStep_endAlike ⟨v, rfl⟩
  | flagsWrite w =>
    show EndAlike (execWrFlagsOut w s) (execWrFlagsOut w (s.setOutputFlags v))
    exact hostStep_endAlike ⟨w, rfl⟩
  | reset =>
    show EndAlike (execReset s) (execReset (s.setOutputFlags v))
    exact hostStep_endAlike ⟨Config.RST_OUTPUT_FLAGS, rfl⟩
  | inboundByte b => exact execRxByte_endAlike b s v
  | nopRead i off h => rw [h, h]; exact hostStep_endAlike ⟨v, rfl⟩
  | nopWrite i h => rw [h, h]; exact hostStep_endAlike ⟨v, rfl⟩

theorem firmwareRead_endAlike (w : FwWindow) (off : Nat) (s : State) (v : Byte) :
    EndAlike (firmwareRead w off s) (firmwareRead w off (s.setOutputFlags v)) := by
  unfold firmwareRead
  split
  · exact hostStep_endAlike ⟨v, by rw [setOutputFlags_firmware]; rfl⟩
  · exact .fault _

theorem firmwareWrite_endAlike (w : FwWindow) (off : Nat) (d : Byte) (s : State) (v : Byte) :
    EndAlike (firmwareWrite w off d s) (firmwareWrite w off d (s.setOutputFlags v)) := by
  unfold firmwareWrite
  split
  · exact hostStep_endAlike ⟨v, rfl⟩
  · exact .fault _

theorem runWord_endAlike (w : Word) (s : State) (v : Byte) :
    EndAlike (runWord w s) (runWord w (s.setOutputFlags v)) := by
  unfold runWord
  cases decode w with
  | ok i => exact exec_endAlike i s v
  | error e => exact .refused _

theorem runAccess_endAlike (bits off : Nat) (k : AccessKind) (d : Byte) (s : State) (v : Byte) :
    EndAlike (runAccess bits off k d s) (runAccess bits off k d (s.setOutputFlags v)) := by
  unfold runAccess
  split
  · split
    · exact exec_endAlike _ s v
    · exact .fault _
  · exact .refused _

theorem runInput_endAlike (i : Input) (s : State) (v : Byte) :
    EndAlike (runInput i s) (runInput i (s.setOutputFlags v)) := by
  cases i with
  | event w => exact runWord_endAlike w s v
  | completion =>
    simp only [runInput, completeDataIn_setOutputFlags]
    exact .next _ v
  | receiveFailure => exact .next _ v
  | access bits off k d => exact runAccess_endAlike bits off k d s v
  | firmwareRead w off => exact firmwareRead_endAlike w off s v
  | firmwareWrite w off d => exact firmwareWrite_endAlike w off d s v

theorem nextAction_setOutputFlags (s : State) (v : Byte) : nextAction (s.setOutputFlags v) = nextAction s := rfl

theorem step_endAlike (s : State) (v : Byte) : EndAlike (step s) (step (s.setOutputFlags v)) := by
  have hsame := nextAction_setOutputFlags s v
  cases ha : nextAction s with
  | wait => rw [step_wait ha, step_wait (hsame.trans ha)]; exact .next _ v
  | complete =>
    rw [step_complete ha, step_complete (hsame.trans ha), completeDataIn_setOutputFlags]
    exact .next _ v
  | take i rest =>
    rw [step_take ha, step_take (hsame.trans ha)]
    exact runInput_endAlike i (s.setInputs rest) v

theorem run_endAlike (n : Nat) (s : State) (v : Byte) : EndAlike (run n s) (run n (s.setOutputFlags v)) := by
  induction n generalizing s v with
  | zero => exact .next s v
  | succ n ih =>
    rcases step_endAlike s v with ⟨t, v', h, h'⟩ | ⟨r, h, h'⟩ | ⟨r, h, h'⟩
    · rw [run_succ n h, run_succ n h']; exact ih t v'
    · rw [run_succ_fault n h, run_succ_fault n h']; exact .fault r
    · rw [run_succ_refused n h, run_succ_refused n h']; exact .refused r

/-- Settles O37: the step relates states that differ in `output_flags` only, hence every run does. -/
theorem outputFlagsAreNeverObserved : Obligations.OutputFlagsAreNeverObserved := run_endAlike

end Sys2Proof.Machine
end

section
/-! Who may change what: the stalled host (R34, R121, R262), bits 7 and 6 of `input_flags` (R25, R26), `output_flags`
and the transmit history (R20, R205), the queue (R27). -/

namespace Sys2Proof.Machine

/-- Settles O12: `hostStep` holds every HOST event, and the arbiter finds nothing to take. -/
theorem hostIsHeldWhileAReadIsStalled : Obligations.HostIsHeldWhileAReadIsStalled :=
  ⟨fun _ _ hp hi => exec_held hi hp, fun _ hp hq hi => step_wait (nextAction_stalled_empty hp hq hi)⟩

/-! ## Bit 7 of `input_flags` -/

/-- The three ways bit 7 of `input_flags` may change (R25). -/
def ReceiveRequestCause (s t : State) : Prop :=
  (receiveRequest t.card.inputFlags = false ∧ s.card.receiveQueue ≠ [] ∧
    t.card.receiveQueue = s.card.receiveQueue ∧
    t.readLog = s.readLog ++ [⟨.register Config.OFF_FLAGS_IN, s.card.inputFlags⟩]) ∨
  (receiveRequest t.card.inputFlags = true ∧ ∃ b, s.card.receiveQueue = b :: t.card.receiveQueue ∧
    t.readLog = s.readLog ++ [⟨.register Config.OFF_DATA_IN, b⟩]) ∨
  (t.card.inputFlags = Config.RST_INPUT_FLAGS ∧ t.card.outputFlags = Config.RST_OUTPUT_FLAGS ∧
    t.card.receiveQueue = [] ∧ t.readLog = s.readLog)

/-- A status read that changes bit 7 saw a byte queued, and cleared it. -/
theorem statusReadFlags_changes_receiveRequest {f : Byte} {q : List Byte}
    (h : receiveRequest (statusReadFlags f (!queueIsEmpty q)) ≠ receiveRequest f) :
    receiveRequest (statusReadFlags f (!queueIsEmpty q)) = false ∧ q ≠ [] := by
  cases q with
  | nil => simp at h
  | cons b q => simp

theorem hostEffect_receiveRequest {s t : State} (he : HostEffect s t)
    (hne : receiveRequest t.card.inputFlags ≠ receiveRequest s.card.inputFlags) : ReceiveRequestCause s t := by
  cases he with
  | statusRead =>
    obtain ⟨hclear, hq⟩ := statusReadFlags_changes_receiveRequest hne
    exact .inl ⟨hclear, hq, rfl, rfl⟩
  | dataRead b q hq => exact .inr (.inl ⟨receiveRequest_dataReadFlags _, b, hq, rfl⟩)
  | dataWrite v => exact absurd (receiveRequest_dataWriteFlags _) hne
  | flagsWrite v => exact absurd (receiveRequest_flagsWriteFlags _ v) hne
  | reset => exact .inr (.inr ⟨rfl, rfl, rfl, rfl⟩)
  | dataStall | nopRead | nopWrite => exact absurd rfl hne

theorem inputEffect_receiveRequest {i : Input} {s t : State} (he : InputEffect i s t)
    (hne : receiveRequest t.card.inputFlags ≠ receiveRequest s.card.inputFlags) : ReceiveRequestCause s t := by
  cases he with
  | host _ _ h => exact hostEffect_receiveRequest h hne
  | completion b q _ hq => exact .inr (.inl ⟨receiveRequest_dataReadFlags _, b, hq, rfl⟩)
  | none | enqueue | drop | receiveFailure | firmwareRead => exact absurd rfl hne

theorem step_receiveRequest {s t : State} (hstep : step s = .next t)
    (hne : receiveRequest t.card.inputFlags ≠ receiveRequest s.card.inputFlags) : ReceiveRequestCause s t := by
  rcases step_cases hstep with ⟨-, rfl⟩ | ⟨b, q, -, hq, rfl⟩ | ⟨i, rest, -, he⟩
  · exact absurd rfl hne
  · exact .inr (.inl ⟨receiveRequest_dataReadFlags _, b, hq, rfl⟩)
  · exact inputEffect_receiveRequest (s := s.setInputs rest) he hne

/-- Settles O26: bit 7 is `receiveRequest`, and only a status read, a dequeue and RESET move it. -/
theorem receiveRequestChangesOnlyAsStated : Obligations.ReceiveRequestChangesOnlyAsStated :=
  fun _ _ hstep hne => step_receiveRequest hstep hne

/-! ## Bit 6 of `input_flags` -/

theorem exec_sendConfirm {i : Instr} {s t : State} (h : exec i s = .next t)
    (hne : sendConfirm t.card.inputFlags ≠ sendConfirm s.card.inputFlags) :
    i = .rdFlagsIn ∨ (∃ v, i = .wrDataOut v) ∨ (∃ v, i = .wrFlagsOut v) ∨ i = .reset := by
  cases exec_effect h with
  | statusRead => exact .inl rfl
  | dataWrite v => exact .inr (.inl ⟨v, rfl⟩)
  | flagsWrite v => exact .inr (.inr (.inl ⟨v, rfl⟩))
  | reset => exact .inr (.inr (.inr rfl))
  | dataRead => exact absurd (sendConfirm_dataReadFlags _) hne
  | dataStall | nopRead | unchanged | enqueue | drop => exact absurd rfl hne

theorem sendConfirm_completeDataIn (s : State) :
    sendConfirm (completeDataIn s).card.inputFlags = sendConfirm s.card.inputFlags := by
  rcases completeDataIn_cases s with ⟨b, q, -, -, he⟩ | he
  · rw [he]; exact sendConfirm_dataReadFlags _
  · rw [he]

/-- R141 (c): bit 6 becomes the complement of bit 1 of the value written. -/
theorem sendConfirm_flagsWriteFlags_iff (f v : Byte) :
    sendConfirm (flagsWriteFlags f v) = true ↔ receiveConfirm v = false := by simp

/-- Settles O27: by the event's effect, and by each of the four events on an idle host. -/
theorem sendConfirmChangesOnlyAsStated : Obligations.SendConfirmChangesOnlyAsStated :=
  ⟨fun _ _ _ h hne => exec_sendConfirm h hne, sendConfirm_completeDataIn, fun _ v hp =>
    ⟨⟨_, exec_rdFlagsIn hp, sendConfirm_statusReadFlags _ _⟩,
      ⟨_, exec_wrDataOut v hp, sendConfirm_dataWriteFlags _⟩,
      ⟨_, exec_wrFlagsOut v hp, sendConfirm_flagsWriteFlags_iff _ v⟩,
      ⟨_, exec_reset hp, sendConfirm_rstInputFlags⟩⟩⟩

/-! ## `output_flags` and the transmit history -/

theorem exec_outputFlags {i : Instr} {s t : State} (h : exec i s = .next t)
    (hne : t.card.outputFlags ≠ s.card.outputFlags) :
    i = .wrFlagsOut t.card.outputFlags ∨ (i = .reset ∧ t.card.outputFlags = Config.RST_OUTPUT_FLAGS) := by
  cases exec_effect h with
  | flagsWrite v => exact .inl rfl
  | reset => exact .inr ⟨rfl, rfl⟩
  | statusRead | dataRead | dataStall | dataWrite | nopRead | unchanged | enqueue | drop => exact absurd rfl hne

theorem exec_txLog {i : Instr} {s t : State} (h : exec i s = .next t) (hne : t.txLog ≠ s.txLog) :
    ∃ v, i = .wrDataOut v ∧ t.txLog = s.txLog ++ [v] := by
  cases exec_effect h with
  | dataWrite v => exact ⟨v, rfl, rfl⟩
  | statusRead | dataRead | dataStall | flagsWrite | reset | nopRead | unchanged | enqueue | drop =>
    exact absurd rfl hne

/-- Settles O28: by the event's effect, one field at a time. -/
theorem outputFlagsAndTransmitHaveOneWriter : Obligations.OutputFlagsAndTransmitHaveOneWriter :=
  fun _ _ _ h => ⟨exec_outputFlags h, exec_txLog h⟩

/-! ## The receive queue -/

theorem exec_receiveQueue {i : Instr} {s t : State} (h : exec i s = .next t) :
    t.card.receiveQueue = s.card.receiveQueue ∨
    (∃ b, i = .rxByte b ∧ s.card.receiveQueue.length < Config.QCAP ∧
      t.card.receiveQueue = s.card.receiveQueue ++ [b]) ∨
    (∃ b, i = .rdDataIn ∧ s.card.receiveQueue = b :: t.card.receiveQueue ∧
      t.readLog = s.readLog ++ [⟨.register Config.OFF_DATA_IN, b⟩]) ∨
    (i = .reset ∧ t.card.receiveQueue = []) := by
  cases exec_effect h with
  | enqueue b hl => exact .inr (.inl ⟨b, rfl, hl, rfl⟩)
  | dataRead b q _ hq => exact .inr (.inr (.inl ⟨b, rfl, hq, rfl⟩))
  | reset => exact .inr (.inr (.inr ⟨rfl, rfl⟩))
  | statusRead | dataStall | dataWrite | flagsWrite | nopRead | unchanged | drop => exact .inl rfl

theorem completeDataIn_receiveQueue (s : State) :
    (completeDataIn s).card.receiveQueue = s.card.receiveQueue ∨
    ∃ b, s.card.receiveQueue = b :: (completeDataIn s).card.receiveQueue ∧
      (completeDataIn s).readLog = s.readLog ++ [⟨.register Config.OFF_DATA_IN, b⟩] := by
  rcases completeDataIn_cases s with ⟨b, q, -, hq, he⟩ | he
  · rw [he]; exact .inr ⟨b, hq, rfl⟩
  · rw [he]; exact .inl rfl

/-- No HOST event makes the queue longer. -/
theorem hostEffect_queue_length_le {s t : State} (he : HostEffect s t) :
    t.card.receiveQueue.length ≤ s.card.receiveQueue.length := by
  cases he with
  | dataRead b q hq => simp [hq]
  | reset => exact Nat.zero_le _
  | statusRead | dataStall | dataWrite | flagsWrite | nopRead | nopWrite => exact Nat.le_refl _

theorem inputEffect_queue_bounded {i : Input} {s t : State} (he : InputEffect i s t)
    (hs : s.card.receiveQueue.length ≤ Config.QCAP) : t.card.receiveQueue.length ≤ Config.QCAP := by
  cases he with
  | host _ _ h => exact (hostEffect_queue_length_le h).trans hs
  | enqueue b _ hl => simpa using hl
  | completion b q _ hq => exact (hostEffect_queue_length_le (.dataRead b q hq)).trans hs
  | none | drop | receiveFailure | firmwareRead => exact hs

theorem step_queue_bounded {s t : State} (hstep : step s = .next t)
    (hs : s.card.receiveQueue.length ≤ Config.QCAP) : t.card.receiveQueue.length ≤ Config.QCAP := by
  rcases step_cases hstep with ⟨-, rfl⟩ | ⟨b, q, -, hq, rfl⟩ | ⟨i, rest, -, he⟩
  · exact hs
  · exact (hostEffect_queue_length_le (.dataRead b q hq)).trans hs
  · exact inputEffect_queue_bounded he hs

/-- Settles O29: by the event's effect, by the completion, and by the bound every step keeps. -/
theorem queueChangesOnlyAtItsEnds : Obligations.QueueChangesOnlyAtItsEnds :=
  ⟨fun _ _ _ h => exec_receiveQueue h, completeDataIn_receiveQueue, fun _ _ hstep hs => step_queue_bounded hstep hs,
    Nat.zero_le _⟩

end Sys2Proof.Machine
end

section
/-! The event an input stands for, as a word or as an access tuple, and what the inputs of the other kinds do. -/

namespace Sys2Proof.Machine

/-- The event that taking an input runs: the one its word spells (R98) or its access tuple selects (R91). A completion
marker, a receive failure and a firmware access have no event (R93). -/
def inputEvent : Input → Option Instr
  | .event w => (decode w).toOption
  | .access bits off k v =>
    if bits = 8 ∧ off < 2 ^ Config.WIN_BITS then some (dispatch (offsetOperand off) k v) else none
  | .completion | .receiveFailure | .firmwareRead _ _ | .firmwareWrite _ _ _ => none

theorem inputEvent_event_iff {w : Word} {j : Instr} : inputEvent (.event w) = some j ↔ decode w = .ok j := by
  cases hd : decode w <;> simp [inputEvent, hd, Except.toOption]

theorem inputEvent_access_iff {bits off : Nat} {k : AccessKind} {v : Byte} {j : Instr} :
    inputEvent (.access bits off k v) = some j ↔
      (bits = 8 ∧ off < 2 ^ Config.WIN_BITS) ∧ dispatch (offsetOperand off) k v = j := by
  by_cases h : bits = 8 ∧ off < 2 ^ Config.WIN_BITS <;> simp [inputEvent, h]

/-! ## Running it -/

theorem runInput_event {w : Word} {j : Instr} (hd : decode w = .ok j) (s : State) :
    runInput (.event w) s = exec j s := by simp only [runInput, runWord, hd]

theorem runAccess_inWindow {off : Nat} (h : off < 2 ^ Config.WIN_BITS) (k : AccessKind) (v : Byte) (s : State) :
    runAccess 8 off k v s = exec (dispatch (offsetOperand off) k v) s := by
  simp only [runAccess, if_true, inRegisterWindow, decide_eq_true h]

theorem runAccess_outside {off : Nat} (h : 2 ^ Config.WIN_BITS ≤ off) (k : AccessKind) (v : Byte) (s : State) :
    runAccess 8 off k v s = .fault .outsideWindow := by
  simp only [runAccess, if_true, inRegisterWindow, decide_eq_false (Nat.not_lt.2 h), Bool.false_eq_true, if_false]

theorem runAccess_width {bits : Nat} (h : bits ≠ 8) (off : Nat) (k : AccessKind) (v : Byte) (s : State) :
    runAccess bits off k v s = .refused (.accessWidth bits) := if_neg h

theorem runInput_of_inputEvent {i : Input} {j : Instr} (h : inputEvent i = some j) (s : State) :
    runInput i s = exec j s := by
  cases i with
  | event w => exact runInput_event (inputEvent_event_iff.1 h) s
  | access bits off k v =>
    obtain ⟨⟨rfl, hoff⟩, rfl⟩ := inputEvent_access_iff.1 h
    exact runAccess_inWindow hoff k v s
  | completion | receiveFailure | firmwareRead | firmwareWrite => cases h

/-- Everything an input with no event can do: complete a stalled read, log a failure, read a firmware byte, nothing. -/
theorem runInput_of_no_event {i : Input} {s t : State} (h : inputEvent i = none) (ht : runInput i s = .next t) :
    t = completeDataIn s ∨ t = receiveFailure s ∨ (∃ w off b, t = s.logRead (.firmware w off) b) ∨ t = s := by
  cases i with
  | event w =>
    cases hd : decode w with
    | ok j => exact absurd (h.symm.trans (inputEvent_event_iff.2 hd)) (Option.some_ne_none j).symm
    | error e => simp [runInput, runWord, hd] at ht
  | access bits off k v =>
    by_cases hb : bits = 8
    · subst hb
      by_cases hoff : off < 2 ^ Config.WIN_BITS
      · exact absurd (h.symm.trans (inputEvent_access_iff.2 ⟨⟨rfl, hoff⟩, rfl⟩)) (Option.some_ne_none _).symm
      · cases (runAccess_outside (Nat.le_of_not_lt hoff) k v s).symm.trans ht
    · cases (runAccess_width hb off k v s).symm.trans ht
  | completion => cases ht; exact .inl rfl
  | receiveFailure => cases ht; exact .inr (.inl rfl)
  | firmwareRead w off =>
    simp only [runInput, firmwareRead] at ht
    split at ht
    · rcases hostStep_next ht with ⟨-, rfl⟩ | ⟨-, rfl⟩
      · exact .inr (.inr (.inl ⟨w, off, _, rfl⟩))
      · exact .inr (.inr (.inr rfl))
    · cases ht
  | firmwareWrite w off v =>
    simp only [runInput, firmwareWrite] at ht
    split at ht
    · rcases hostStep_next ht with ⟨-, rfl⟩ | ⟨-, rfl⟩ <;> exact .inr (.inr (.inr rfl))
    · cases ht

/-! ## The observations of an input, by its event -/

theorem inboundByte_eq_some_iff {i : Input} {b : Byte} :
    inboundByte i = some b ↔ inputEvent i = some (.rxByte b) := by
  cases i with
  | event w =>
    rw [inputEvent_event_iff]
    cases hd : decode w with
    | error e => simp [inboundByte, hd]
    | ok j => cases j <;> simp [inboundByte, hd]
  | access bits off k v => simp [inboundByte, inputEvent_access_iff, dispatch_ne_rxByte]
  | completion | receiveFailure | firmwareRead | firmwareWrite => simp [inboundByte, inputEvent]

/-- R51: the dispatcher selects the data write for a write to data-out alone. -/
theorem dispatch_eq_wrDataOut_iff {off : Offset} {k : AccessKind} {v b : Byte} :
    dispatch off k v = .wrDataOut b ↔ off = Config.OFF_DATA_OUT ∧ k = .write ∧ v = b := by
  cases k with
  | read =>
    simp only [dispatch, dispatchRead, readNopAt]
    (repeat' split) <;> simp
  | write =>
    by_cases hf : off = Config.OFF_FLAGS_OUT
    · rw [hf, dispatch, dispatchWrite_flagsOut]
      exact iff_of_false nofun fun h => absurd h.1 (by decide)
    · by_cases hd : off = Config.OFF_DATA_OUT
      · rw [hd, dispatch, dispatchWrite_dataOut, Instr.wrDataOut.injEq]
        simp only [true_and]
      · simp only [dispatch, dispatchWrite_nop v hf hd, hd, false_and, iff_false, writeNopAt]
        (repeat' split) <;> simp

theorem offsetOperand_eq_iff {n : Nat} {off : Offset} (h : n < 2 ^ Config.WIN_BITS) :
    offsetOperand n = off ↔ n = off.toNat := by
  rw [← BitVec.toNat_inj, offsetOperand, BitVec.toNat_ofNat, Nat.mod_eq_of_lt h]

theorem writtenByte_eq_some_iff {i : Input} {b : Byte} :
    writtenByte i = some b ↔ inputEvent i = some (.wrDataOut b) := by
  cases i with
  | event w =>
    rw [inputEvent_event_iff]
    cases hd : decode w with
    | error e => simp [writtenByte, hd]
    | ok j => cases j <;> simp [writtenByte, hd]
  | access bits off k v =>
    rw [inputEvent_access_iff, dispatch_eq_wrDataOut_iff]
    by_cases hoff : off < 2 ^ Config.WIN_BITS
    · simp [writtenByte, offsetOperand_eq_iff hoff, hoff, and_assoc]
    · have hne : off ≠ Config.OFF_DATA_OUT.toNat := fun h => hoff (h ▸ Config.OFF_DATA_OUT.isLt)
      simp only [writtenByte, hoff, hne, and_false, false_and, if_false, reduceCtorEq]
  | completion | receiveFailure | firmwareRead | firmwareWrite => simp [writtenByte, inputEvent]

/-- R96: RESET has one word. -/
theorem decode_eq_reset {w : Word} (h : decode w = .ok .reset) : w = rstWord := by
  unfold decode at h
  split at h; · cases h
  split at h; · cases h
  split at h
  · split at h
    · assumption
    · cases h
  split at h; · split at h <;> cases h
  split at h; · exact absurd (Except.ok.inj h) (dispatch_ne_reset _ _ _)
  split at h
  · exact absurd (Except.ok.inj h) (dispatch_ne_reset _ _ _)
  · cases h

theorem isResetInput_of_inputEvent {i : Input} (h : inputEvent i = some .reset) : isResetInput i = true := by
  cases i with
  | event w => simp [isResetInput, decode_eq_reset (inputEvent_event_iff.1 h)]
  | access bits off k v => exact absurd (inputEvent_access_iff.1 h).2 (dispatch_ne_reset _ _ _)
  | completion | receiveFailure | firmwareRead | firmwareWrite => cases h

/-- The events that are not an inbound byte are the HOST's (R14). -/
theorem isHostInput_of_inputEvent {i : Input} {j : Instr} (h : inputEvent i = some j) (hj : ∀ b, j ≠ .rxByte b) :
    isHostInput i = true := by
  cases i with
  | event w =>
    cases j with
    | rxByte b => exact absurd rfl (hj b)
    | _ => simp only [isHostInput, inputEvent_event_iff.1 h]
  | access => rfl
  | completion | receiveFailure | firmwareRead | firmwareWrite => cases h

/-- An inbound byte is the LISTENER's. -/
theorem isHostInput_of_rxByte {i : Input} {b : Byte} (h : inputEvent i = some (.rxByte b)) :
    isHostInput i = false := by
  cases i with
  | event w => simp only [isHostInput, inputEvent_event_iff.1 h]
  | access bits off k v => exact absurd (inputEvent_access_iff.1 h).2 (dispatch_ne_rxByte _ _ _ _)
  | completion | receiveFailure | firmwareRead | firmwareWrite => cases h

theorem inboundByte_of_host {i : Input} (h : isHostInput i = true) : inboundByte i = none :=
  Option.eq_none_iff_forall_ne_some.2 fun _ hb =>
    Bool.false_ne_true ((isHostInput_of_rxByte (inboundByte_eq_some_iff.1 hb)).symm.trans h)

theorem writtenByte_of_listener {i : Input} (h : isHostInput i = false) : writtenByte i = none :=
  Option.eq_none_iff_forall_ne_some.2 fun _ hb =>
    Bool.false_ne_true (h.symm.trans (isHostInput_of_inputEvent (writtenByte_eq_some_iff.1 hb) nofun))

end Sys2Proof.Machine
end

section
/-! The arbitration over a step and over a run (20_memory.md section 5): what is taken from the inputs, and in what
order. -/

namespace Sys2Proof.Machine

/-- What the arbiter may take (R63, R66): input `i` with `pre` before it, on an idle host the first, on a stalled one a
LISTENER's input with only HOST inputs before it. -/
structure Takes (s : State) (pre : List Input) (i : Input) (post : List Input) : Prop where
  inputs : s.inputs = pre ++ i :: post
  held : ∀ j ∈ pre, isHostInput j = true
  turn : (s.hostPending = .idle ∧ pre = []) ∨ (s.hostPending = .stalledOnDataIn ∧ isHostInput i = false)

/-- A HOST input is taken on an idle host only, and as the first. -/
theorem Takes.of_host {s : State} {pre post : List Input} {i : Input} (h : Takes s pre i post)
    (hi : isHostInput i = true) : s.hostPending = .idle ∧ pre = [] :=
  h.turn.resolve_right fun hs => Bool.false_ne_true (hs.2.symm.trans hi)

/-- Any input that was passed is the HOST's, and the one taken is not. -/
theorem Takes.passed {s : State} {pre post : List Input} {i j : Input} (h : Takes s pre i post) (hj : j ∈ pre) :
    isHostInput j = true ∧ isHostInput i = false := by
  refine ⟨h.held j hj, ?_⟩
  rcases h.turn with ⟨-, rfl⟩ | ⟨-, hi⟩
  · cases hj
  · exact hi

theorem Takes.mem {s : State} {pre post : List Input} {i : Input} (h : Takes s pre i post) : i ∈ s.inputs := by
  simp [h.inputs]

theorem runInput_inputs {i : Input} {s t : State} (h : runInput i s = .next t) : t.inputs = s.inputs :=
  inputEffect_inputs (runInput_cases h)

theorem completeDataIn_inputs (s : State) : (completeDataIn s).inputs = s.inputs := by
  rcases completeDataIn_cases s with ⟨b, q, -, -, he⟩ | he
  · rw [he]; rfl
  · rw [he]

/-- Everything a step can do, with the input it takes by name. -/
theorem step_takes {s t : State} (h : step s = .next t) :
    t = s ∨ t = completeDataIn s ∨
      ∃ pre i post, Takes s pre i post ∧ runInput i (s.setInputs (pre ++ post)) = .next t := by
  cases ha : nextAction s with
  | wait => cases (step_wait ha).symm.trans h; exact .inl rfl
  | complete => cases (step_complete ha).symm.trans h; exact .inr (.inl rfl)
  | take i rest =>
    obtain ⟨pre, post, hi, rfl, hpre, hturn⟩ := nextAction_take ha
    exact .inr (.inr ⟨pre, i, post, ⟨hi, hpre, hturn⟩, (step_take ha).symm.trans h⟩)

theorem step_inputs {s t : State} (h : step s = .next t) :
    t.inputs = s.inputs ∨ ∃ pre i post, Takes s pre i post ∧ t.inputs = pre ++ post := by
  rcases step_takes h with rfl | rfl | ⟨pre, i, post, htakes, hrun⟩
  · exact .inl rfl
  · exact .inl (completeDataIn_inputs s)
  · exact .inr ⟨pre, i, post, htakes, runInput_inputs hrun⟩

theorem mem_inputs_of_step {s t : State} (h : step s = .next t) {i : Input} (hi : i ∈ t.inputs) : i ∈ s.inputs := by
  rcases step_inputs h with he | ⟨pre, j, post, htakes, he⟩
  · exact he ▸ hi
  · rw [he, List.mem_append] at hi
    rw [htakes.inputs, List.mem_append, List.mem_cons]
    exact hi.imp_right .inr

/-! ## Each agent's own order -/

/-- The HOST's inputs that are left are its inputs but the first, if that was taken. -/
theorem Takes.filter_host {s : State} {pre post : List Input} {i : Input} (h : Takes s pre i post) :
    (pre ++ post).filter isHostInput = (s.inputs.filter isHostInput).drop (if isHostInput i then 1 else 0) := by
  rw [h.inputs]
  cases hi : isHostInput i with
  | true => obtain ⟨-, rfl⟩ := h.of_host hi; simp [hi]
  | false => simp [hi]

/-- The same for the others: those that were passed are the HOST's. -/
theorem Takes.filter_listener {s : State} {pre post : List Input} {i : Input} (h : Takes s pre i post) :
    (pre ++ post).filter (fun j => !isHostInput j) =
      (s.inputs.filter (fun j => !isHostInput j)).drop (if isHostInput i then 0 else 1) := by
  have hpre : pre.filter (fun j => !isHostInput j) = [] :=
    List.filter_eq_nil_iff.2 fun j hj => by simp [h.held j hj]
  rw [h.inputs]
  cases hi : isHostInput i <;> simp [hi, hpre]

/-- Settles O11: the step takes the first HOST input or, past HOST inputs only, the first of the others. -/
theorem eachAgentsInputsAreTakenInOrder : Obligations.EachAgentsInputsAreTakenInOrder := by
  intro s t hstep
  rcases step_inputs hstep with he | ⟨pre, i, post, htakes, he⟩
  · exact ⟨.inl he, 0, 0, by decide, by rw [he, List.drop_zero], by rw [he, List.drop_zero]⟩
  · refine ⟨.inr ⟨pre, i, post, htakes.inputs, he, fun _ hj => htakes.passed hj⟩, if isHostInput i then 1 else 0,
      if isHostInput i then 0 else 1, ?_, he ▸ htakes.filter_host, he ▸ htakes.filter_listener⟩
    cases isHostInput i <;> decide

/-! ## Inputs observed one byte at a time -/

/-- An observation that only LISTENER's inputs, or only HOST inputs, can yield finds in the inputs what the one taken
yields, followed by what the inputs left yield. -/
theorem Takes.filterMap {s : State} {pre post : List Input} {i : Input} (h : Takes s pre i post)
    {g : Input → Option Byte}
    (hg : (∀ j, isHostInput j = true → g j = none) ∨ (∀ j, isHostInput j = false → g j = none)) :
    s.inputs.filterMap g = (g i).toList ++ (pre ++ post).filterMap g := by
  rw [h.inputs]
  rcases h.turn with ⟨-, rfl⟩ | ⟨-, hi⟩
  · cases hgi : g i <;> simp [hgi]
  · rcases hg with hg | hg
    · have hpre : pre.filterMap g = [] := List.filterMap_eq_nil_iff.2 fun j hj => hg j (h.held j hj)
      cases hgi : g i <;> simp [hgi, hpre]
    · simp [hg i hi]

theorem Takes.inboundBytes_eq {s : State} {pre post : List Input} {i : Input} (h : Takes s pre i post) :
    inboundBytes s.inputs = (inboundByte i).toList ++ inboundBytes (pre ++ post) :=
  h.filterMap (.inl fun _ => inboundByte_of_host)

theorem Takes.writtenBytes_eq {s : State} {pre post : List Input} {i : Input} (h : Takes s pre i post) :
    writtenBytes s.inputs = (writtenByte i).toList ++ writtenBytes (pre ++ post) :=
  h.filterMap (.inr fun _ => writtenByte_of_listener)

/-! ## Runs -/

/-- The first step of a run that reaches a state. -/
theorem run_succ_next {n : Nat} {s t : State} (h : run (n + 1) s = .next t) :
    ∃ u, step s = .next u ∧ run n u = .next t := by
  cases hs : step s with
  | next u => exact ⟨u, rfl, (run_succ n hs).symm.trans h⟩
  | fault r => cases (run_succ_fault n hs).symm.trans h
  | refused r => cases (run_succ_refused n hs).symm.trans h

/-- What holds of a state and itself, and is kept by one more step in front, holds of every run. -/
theorem run_induction {P : State → State → Prop} (refl : ∀ s, P s s)
    (head : ∀ {s u t}, step s = .next u → P u t → P s t) :
    ∀ (n : Nat) {s t : State}, run n s = .next t → P s t
  | 0, s, t, h => by cases h; exact refl s
  | n + 1, s, t, h => by
    obtain ⟨u, hstep, hrun⟩ := run_succ_next h
    exact head hstep (run_induction refl head n hrun)

end Sys2Proof.Machine
end

section
/-! R67: bytes are delivered in arrival order. What a stretch of a run does to the stream of bytes delivered and queued
is one relation, which every input keeps and which composes. -/

namespace Sys2Proof.Machine

/-! ## What data-in reads have returned -/

theorem delivered_congr {s t : State} (h : t.readLog = s.readLog) : delivered t = delivered s := by
  simp only [delivered, h]

theorem delivered_dataIn {s t : State} {b : Byte}
    (h : t.readLog = s.readLog ++ [⟨.register Config.OFF_DATA_IN, b⟩]) :
    delivered t = delivered s ++ [b] := by simp [delivered, h]

theorem delivered_other {s t : State} {src : ReadSource} {b : Byte} (hsrc : src ≠ .register Config.OFF_DATA_IN)
    (h : t.readLog = s.readLog ++ [⟨src, b⟩]) : delivered t = delivered s := by
  simpa [delivered, h] using hsrc

/-- Of the HOST's events only a data-in read delivers a byte, and it takes it off the queue. -/
theorem hostEffect_delivered {s t : State} (he : HostEffect s t) :
    delivered t = delivered s ∨
      ∃ b, s.card.receiveQueue = b :: t.card.receiveQueue ∧ delivered t = delivered s ++ [b] := by
  cases he with
  | dataRead b q hq => exact .inr ⟨b, hq, delivered_dataIn rfl⟩
  | statusRead => exact .inl (delivered_other (by decide) rfl)
  | nopRead off _ hne => exact .inl (delivered_other (fun h => hne (ReadSource.register.inj h)) rfl)
  | dataStall | dataWrite | flagsWrite | nopWrite | reset => exact .inl (delivered_congr rfl)

/-- The bytes delivered, then the bytes queued: what the HOST has of the inbound stream. -/
def stream (s : State) : List Byte := delivered s ++ s.card.receiveQueue

theorem stream_congr {s t : State} (hr : t.readLog = s.readLog) (hq : t.card.receiveQueue = s.card.receiveQueue) :
    stream t = stream s := by rw [stream, stream, delivered_congr hr, hq]

/-- A byte that moves from the queue to the HOST stays where it is in the stream. -/
theorem stream_dequeue {s t : State} {b : Byte} (hq : s.card.receiveQueue = b :: t.card.receiveQueue)
    (hd : delivered t = delivered s ++ [b]) : stream t = stream s := by
  simp [stream, hq, hd]

theorem stream_setQueue_append (s : State) (b : Byte) :
    stream (s.setQueue (s.card.receiveQueue ++ [b])) = stream s ++ [b] := (List.append_assoc ..).symm

/-- Every HOST event but RESET keeps the stream. -/
theorem exec_stream {j : Instr} {s t : State} (hb : ∀ b, j ≠ .rxByte b) (hr : j ≠ .reset)
    (h : exec j s = .next t) : stream t = stream s := by
  have hd : delivered t = delivered s ∨
      ∃ b, s.card.receiveQueue = b :: t.card.receiveQueue ∧ delivered t = delivered s ++ [b] := by
    rcases exec_cases h with ⟨-, ⟨-, he⟩ | ⟨-, rfl⟩⟩ | ⟨b, rfl, -⟩ | ⟨b, rfl, -⟩
    · exact hostEffect_delivered he
    · exact .inl rfl
    · exact absurd rfl (hb b)
    · exact absurd rfl (hb b)
  rcases exec_receiveQueue h with hq | ⟨b, rfl, -⟩ | ⟨b, -, hq, hlog⟩ | ⟨rfl, -⟩
  · rcases hd with hd | ⟨b, hq', -⟩
    · rw [stream, stream, hd, hq]
    · exact absurd (hq.trans hq').symm (List.cons_ne_self b _)
  · exact absurd rfl (hb b)
  · exact stream_dequeue hq (delivered_dataIn hlog)
  · exact absurd rfl hr

theorem completeDataIn_stream (s : State) : stream (completeDataIn s) = stream s := by
  rcases completeDataIn_cases s with ⟨b, q, -, hq, he⟩ | he
  · rw [he]; exact stream_dequeue hq (delivered_dataIn rfl)
  · rw [he]

/-! ## The relation -/

/-- From `s` to `t` the inbound bytes `taken` arrived and `kept` of them were queued, in order. -/
structure Arrival (s t : State) (taken kept : List Byte) : Prop where
  sublist : kept.Sublist taken
  stream_eq : stream t = stream s ++ kept
  /-- R181: nothing is dropped while there is room for all -/
  room : s.card.receiveQueue.length + taken.length ≤ Config.QCAP → kept = taken
  length_le : t.card.receiveQueue.length ≤ s.card.receiveQueue.length + taken.length

theorem Arrival.none {s t : State} (hs : stream t = stream s)
    (hl : t.card.receiveQueue.length ≤ s.card.receiveQueue.length) : Arrival s t [] [] :=
  ⟨.slnil, by simpa using hs, fun _ => rfl, hl⟩

theorem Arrival.trans {s u t : State} {taken taken' kept kept' : List Byte} (h : Arrival s u taken kept)
    (h' : Arrival u t taken' kept') : Arrival s t (taken ++ taken') (kept ++ kept') where
  sublist := h.sublist.append h'.sublist
  stream_eq := by rw [h'.stream_eq, h.stream_eq, List.append_assoc]
  room := by
    intro hroom
    have hle := h.length_le
    rw [List.length_append] at hroom
    rw [h.room (by omega), h'.room (by omega)]
  length_le := by
    have hle := h.length_le
    have hle' := h'.length_le
    rw [List.length_append]
    omega

theorem completeDataIn_arrival (s : State) : Arrival s (completeDataIn s) [] [] := by
  refine .none (completeDataIn_stream s) ?_
  rcases completeDataIn_receiveQueue s with hq | ⟨b, hq, -⟩
  · rw [hq]
  · rw [hq]; exact Nat.le_succ _

/-- R201: an inbound byte is kept below capacity and lost at it. -/
theorem exec_rxByte_arrival {b : Byte} {s t : State} (h : exec (.rxByte b) s = .next t) :
    ∃ kept, Arrival s t [b] kept := by
  rcases Nat.lt_or_ge s.card.receiveQueue.length Config.QCAP with hl | hl
  · cases (exec_rxByte_room b hl).symm.trans h
    exact ⟨[b], List.Sublist.refl _, stream_setQueue_append s b, fun _ => rfl, by simp⟩
  · cases (exec_rxByte_full b hl).symm.trans h
    exact ⟨[], List.nil_sublist _, (List.append_nil _).symm,
      fun hroom => absurd hroom (Nat.not_le.2 (Nat.lt_succ_of_le hl)), Nat.le_add_right ..⟩

theorem exec_host_arrival {j : Instr} {s t : State} (hb : ∀ b, j ≠ .rxByte b) (hr : j ≠ .reset)
    (h : exec j s = .next t) : Arrival s t [] [] := by
  refine .none (exec_stream hb hr h) ?_
  rcases exec_cases h with ⟨-, ⟨-, he⟩ | ⟨-, rfl⟩⟩ | ⟨b, rfl, -⟩ | ⟨b, rfl, -⟩
  · exact hostEffect_queue_length_le he
  · exact Nat.le_refl _
  · exact absurd rfl (hb b)
  · exact absurd rfl (hb b)

/-- Every input but RESET: its inbound byte, if it carries one, arrives. -/
theorem runInput_arrival {i : Input} {s t : State} (hi : isResetInput i = false) (h : runInput i s = .next t) :
    ∃ kept, Arrival s t (inboundByte i).toList kept := by
  cases hev : inputEvent i with
  | none =>
    have hin : inboundByte i = none :=
      Option.eq_none_iff_forall_ne_some.2 fun b hb =>
        Option.some_ne_none _ ((inboundByte_eq_some_iff.1 hb).symm.trans hev)
    rw [hin]
    refine ⟨[], ?_⟩
    rcases runInput_of_no_event hev h with rfl | rfl | ⟨w, off, b, rfl⟩ | rfl
    · exact completeDataIn_arrival s
    · exact .none (stream_congr rfl rfl) (Nat.le_refl _)
    · refine .none ?_ (Nat.le_refl _)
      rw [stream, delivered_other (by simp) (logRead_readLog s _ b), logRead_receiveQueue, stream]
    · exact .none rfl (Nat.le_refl _)
  | some j =>
    rw [runInput_of_inputEvent hev] at h
    by_cases hb : ∃ b, j = .rxByte b
    · obtain ⟨b, rfl⟩ := hb
      rw [inboundByte_eq_some_iff.2 hev]
      exact exec_rxByte_arrival h
    · have hb : ∀ b, j ≠ .rxByte b := fun b hj => hb ⟨b, hj⟩
      have hr : j ≠ .reset := by
        rintro rfl
        exact Bool.false_ne_true (hi.symm.trans (isResetInput_of_inputEvent hev))
      rw [inboundByte_of_host (isHostInput_of_inputEvent hev hb)]
      exact ⟨[], exec_host_arrival hb hr h⟩

/-- With no RESET among the inputs, the inbound bytes taken from `s` to `t` arrive. -/
def Arrives (s t : State) : Prop :=
  (∀ i ∈ s.inputs, isResetInput i = false) →
    ∃ taken kept, inboundBytes s.inputs = taken ++ inboundBytes t.inputs ∧ Arrival s t taken kept

theorem Arrives.refl (s : State) : Arrives s s :=
  fun _ => ⟨[], [], rfl, .none rfl (Nat.le_refl _)⟩

theorem step_arrives {s t : State} (h : step s = .next t) : Arrives s t := by
  intro hs
  rcases step_takes h with rfl | rfl | ⟨pre, i, post, htakes, hrun⟩
  · exact Arrives.refl _ hs
  · exact ⟨[], [], by rw [completeDataIn_inputs, List.nil_append], completeDataIn_arrival s⟩
  · obtain ⟨kept, hk⟩ := runInput_arrival (hs i htakes.mem) hrun
    refine ⟨(inboundByte i).toList, kept, ?_, { hk with }⟩
    rw [htakes.inboundBytes_eq, runInput_inputs hrun, setInputs_inputs]

theorem Arrives.head {s u t : State} (hstep : step s = .next u) (ih : Arrives u t) : Arrives s t := by
  intro hs
  obtain ⟨taken, kept, hin, ha⟩ := step_arrives hstep hs
  obtain ⟨taken', kept', hin', ha'⟩ := ih fun i hi => hs i (mem_inputs_of_step hstep hi)
  exact ⟨taken ++ taken', kept ++ kept', by rw [hin, hin', List.append_assoc], ha.trans ha'⟩

/-- Settles O38: every step keeps the relation `Arrival`, and it composes over the run. -/
theorem bytesAreDeliveredInArrivalOrder : Obligations.BytesAreDeliveredInArrivalOrder := by
  intro n s t hs hrun
  obtain ⟨taken, kept, hin, ha⟩ := run_induction Arrives.refl Arrives.head n hrun hs
  exact ⟨taken, kept, hin, ha.sublist, ha.stream_eq, ha.room⟩

end Sys2Proof.Machine
end

section
/-! A step by its decoded event (R98), and the reads and writes in a row that follow from it: data-in (R67) and data-out
(R68). -/

namespace Sys2Proof.Machine

theorem step_event {s : State} {w : Word} {rest : List Input} {j : Instr} (hp : s.hostPending = .idle)
    (hi : s.inputs = .event w :: rest) (hd : decode w = .ok j) : step s = exec j (s.setInputs rest) :=
  (step_idle_cons hp hi).trans (runInput_event hd _)

/-- An inbound byte is taken on a stalled host too. -/
theorem step_rxByte {s : State} {w : Word} {rest : List Input} {b : Byte} (hi : s.inputs = .event w :: rest)
    (hd : decode w = .ok (.rxByte b)) : step s = exec (.rxByte b) (s.setInputs rest) := by
  have hn : isHostInput (.event w) = false := isHostInput_of_rxByte (inputEvent_event_iff.2 hd)
  exact (step_take (nextAction_listener_head hi hn)).trans (runInput_event hd _)

theorem decodeTableWord_eq_some {nbits w : Nat} {j : Instr} (h : decodeTableWord nbits w = some j) :
    decode (tableWord nbits w) = .ok j := by
  unfold decodeTableWord at h
  cases hd : decode (tableWord nbits w) with
  | ok k => rw [hd] at h; rw [Option.some.inj h]
  | error e => rw [hd] at h; cases h

/-- Settles O6: the arbiter takes the word at the head, and its event is what runs. -/
theorem stepRunsTheDecodedEvent : Obligations.StepRunsTheDecodedEvent :=
  ⟨fun _ _ _ _ hp hi hd => step_event hp hi hd, fun _ _ _ _ hi hd => step_rxByte hi hd,
    fun s nbits w _ hp hd => step_event (s := s.withFetchWord nbits w) hp rfl (decodeTableWord_eq_some hd)⟩

/-! ## Data-in reads in a row -/

theorem decode_dataInWord : decode 0x0E00#16 = .ok .rdDataIn := by decide

/-- A data-in read at the head of an idle host's inputs returns the oldest byte (R121). -/
theorem step_rdDataIn {s : State} {rest : List Input} {b : Byte} {q : List Byte} (hp : s.hostPending = .idle)
    (hi : s.inputs = .event 0x0E00#16 :: rest) (hq : s.card.receiveQueue = b :: q) :
    step s = .next (finishDataIn b q (s.setInputs rest)) :=
  (step_event hp hi decode_dataInWord).trans (exec_rdDataIn_cons hp hq)

/-- Settles O39, by induction on the bytes read: each read takes the oldest and leaves an idle host. -/
theorem dataReadsReturnTheQueueInOrder : Obligations.DataReadsReturnTheQueueInOrder := by
  intro bs q
  induction bs with
  | nil => exact fun s rest hp hq hi => ⟨s, rfl, hp, hi, hq, (List.append_nil _).symm⟩
  | cons b bs ih =>
    intro s rest hp hq hi
    have hstep := step_rdDataIn hp hi hq
    obtain ⟨t, hrun, htp, hti, htq, htlog⟩ :=
      ih (finishDataIn b (bs ++ q) (s.setInputs (List.replicate bs.length (.event 0x0E00#16) ++ rest))) rest hp rfl rfl
    refine ⟨t, (run_succ bs.length hstep).trans hrun, htp, hti, htq, ?_⟩
    rw [htlog, finishDataIn_readLog, setInputs_readLog, List.append_assoc]
    rfl

/-! ## Data-out writes -/

theorem completeDataIn_txLog (s : State) : (completeDataIn s).txLog = s.txLog := by
  rcases completeDataIn_cases s with ⟨b, q, -, -, he⟩ | he
  · rw [he]; rfl
  · rw [he]

/-- An input that writes no byte to data-out leaves the transmit history. -/
theorem runInput_txLog_of_no_write {i : Input} {s t : State} (hi : writtenByte i = none)
    (h : runInput i s = .next t) : t.txLog = s.txLog := by
  cases hev : inputEvent i with
  | none =>
    rcases runInput_of_no_event hev h with rfl | rfl | ⟨w, off, b, rfl⟩ | rfl
    · exact completeDataIn_txLog s
    · rfl
    · rfl
    · rfl
  | some j =>
    rw [runInput_of_inputEvent hev] at h
    by_contra hne
    obtain ⟨v, rfl, -⟩ := exec_txLog h hne
    exact Option.some_ne_none v ((writtenByte_eq_some_iff.2 hev).symm.trans hi)

/-- The input a step takes hands over the byte it writes to data-out, if it is such a write. -/
theorem Takes.txLog {s t : State} {pre post : List Input} {i : Input} (htakes : Takes s pre i post)
    (h : runInput i (s.setInputs (pre ++ post)) = .next t) : t.txLog = s.txLog ++ (writtenByte i).toList := by
  cases hw : writtenByte i with
  | none => exact (runInput_txLog_of_no_write hw h).trans (List.append_nil _).symm
  | some v =>
    have hev : inputEvent i = some (.wrDataOut v) := writtenByte_eq_some_iff.1 hw
    obtain ⟨hp, -⟩ := htakes.of_host (isHostInput_of_inputEvent hev nofun)
    rw [runInput_of_inputEvent hev] at h
    cases (exec_wrDataOut (s := s.setInputs (pre ++ post)) v hp).symm.trans h
    rfl

/-- From `s` to `t` the bytes of the data-out writes taken were handed to the transport, in order. -/
def Sends (s t : State) : Prop :=
  ∃ sent, writtenBytes s.inputs = sent ++ writtenBytes t.inputs ∧ t.txLog = s.txLog ++ sent

theorem Sends.of_same {s t : State} (hi : t.inputs = s.inputs) (htx : t.txLog = s.txLog) : Sends s t :=
  ⟨[], by rw [hi, List.nil_append], by rw [htx, List.append_nil]⟩

theorem Sends.refl (s : State) : Sends s s := .of_same rfl rfl

theorem step_sends {s t : State} (h : step s = .next t) : Sends s t := by
  rcases step_takes h with rfl | rfl | ⟨pre, i, post, htakes, hrun⟩
  · exact .refl _
  · exact .of_same (completeDataIn_inputs s) (completeDataIn_txLog s)
  · exact ⟨_, by rw [htakes.writtenBytes_eq, runInput_inputs hrun, setInputs_inputs], htakes.txLog hrun⟩

theorem Sends.trans {s u t : State} (h : Sends s u) (h' : Sends u t) : Sends s t := by
  obtain ⟨sent, hin, htx⟩ := h
  obtain ⟨sent', hin', htx'⟩ := h'
  exact ⟨sent ++ sent', by rw [hin, hin', List.append_assoc], by rw [htx', htx, List.append_assoc]⟩

/-- A data-out write at the head of an idle host's inputs (R140). -/
theorem step_wrDataOut {s : State} {rest : List Input} {v : Byte} (hp : s.hostPending = .idle)
    (hi : s.inputs = .event (writeWord Config.OFF_DATA_OUT v) :: rest) :
    ∃ u, step s = .next u ∧ u.hostPending = .idle ∧ u.inputs = rest ∧ u.txLog = s.txLog ++ [v] ∧
      u.card.receiveQueue = s.card.receiveQueue ∧ u.card.outputFlags = s.card.outputFlags :=
  ⟨_, (step_event hp hi (decode_writeWord _ v)).trans (exec_wrDataOut v hp), hp, rfl, rfl, rfl, rfl⟩

/-- N writes to data-out in a row are carried out in N steps, by induction on the bytes written. -/
theorem run_dataWrites (vs : List Byte) : ∀ (s : State) (rest : List Input), s.hostPending = .idle →
    s.inputs = vs.map (fun v => .event (writeWord Config.OFF_DATA_OUT v)) ++ rest →
    ∃ t, run vs.length s = .next t ∧ t.hostPending = .idle ∧ t.inputs = rest ∧ t.txLog = s.txLog ++ vs ∧
      t.card.receiveQueue = s.card.receiveQueue ∧ t.card.outputFlags = s.card.outputFlags := by
  induction vs with
  | nil => exact fun s rest hp hi => ⟨s, rfl, hp, hi, (List.append_nil _).symm, rfl, rfl⟩
  | cons v vs ih =>
    intro s rest hp hi
    obtain ⟨u, hstep, hup, hui, hutx, huq, huo⟩ := step_wrDataOut hp hi
    obtain ⟨t, hrun, htp, hti, httx, htq, hto⟩ := ih u rest hup hui
    exact ⟨t, (run_succ vs.length hstep).trans hrun, htp, hti, by rw [httx, hutx, List.append_assoc]; rfl,
      htq.trans huq, hto.trans huo⟩

/-- Settles O40: every step sends what it takes, and each of N writes in a row is taken by the next step. -/
theorem dataWritesAreSentInOrder : Obligations.DataWritesAreSentInOrder :=
  ⟨fun n _ _ hrun => run_induction Sends.refl (fun hstep ih => (step_sends hstep).trans ih) n hrun,
    run_dataWrites⟩

/-! ## Accesses in no window -/

theorem firmwareRead_outside {w : FwWindow} {off : Nat} (h : w.size ≤ off) (s : State) :
    firmwareRead w off s = .fault .outsideWindow := if_neg (Nat.not_lt.2 h)

theorem firmwareWrite_outside {w : FwWindow} {off : Nat} (h : w.size ≤ off) (v : Byte) (s : State) :
    firmwareWrite w off v s = .fault .outsideWindow := if_neg (Nat.not_lt.2 h)

/-- Settles O9: by width first, then by the bound of the window accessed. -/
theorem onlyByteAccessesWithinAWindow : Obligations.OnlyByteAccessesWithinAWindow :=
  ⟨fun s _ off k v hb => runAccess_width hb off k v s, fun s _ k v hoff => runAccess_outside hoff k v s,
    fun s _ v hoff => ⟨firmwareRead_outside (w := .a) hoff s, firmwareWrite_outside (w := .a) hoff v s⟩,
    fun s _ v hoff => ⟨firmwareRead_outside (w := .b) hoff s, firmwareWrite_outside (w := .b) hoff v s⟩⟩

end Sys2Proof.Machine
end

section
/-! R71: an inbound byte and a HOST event in either order. The card after the byte is the same but for its queue, so the
orders differ only where the event reads the queue's emptiness, makes room in it, or resets it. -/

namespace Sys2Proof.Machine

/-! ## The inbound byte on the card -/

/-- What an inbound byte does to the card (R201, R181). -/
def receiveCard (b : Byte) (c : CardState) : CardState :=
  { c with receiveQueue := (tryEnqueue c.receiveQueue b).1 }

/-- The state after an inbound byte. -/
def received (b : Byte) (s : State) : State :=
  if s.card.receiveQueue.length < Config.QCAP then s.setQueue (s.card.receiveQueue ++ [b]) else s.warn .queueFull

theorem exec_rxByte (b : Byte) (s : State) : exec (.rxByte b) s = .next (received b s) := by
  unfold received
  split
  case isTrue h => exact exec_rxByte_room b h
  case isFalse h => exact exec_rxByte_full b (Nat.le_of_not_lt h)

theorem received_card (b : Byte) (s : State) : (received b s).card = receiveCard b s.card := by
  unfold received receiveCard
  split
  case isTrue h => rw [tryEnqueue_room b h]; rfl
  case isFalse h => rw [tryEnqueue_full b (Nat.le_of_not_lt h)]; rfl

theorem received_hostPending (b : Byte) (s : State) : (received b s).hostPending = s.hostPending := by
  unfold received
  split <;> rfl

theorem received_queue_room {b : Byte} {s : State} (h : s.card.receiveQueue.length < Config.QCAP) :
    (received b s).card.receiveQueue = s.card.receiveQueue ++ [b] := by
  rw [received_card, receiveCard, tryEnqueue_room b h]

theorem received_queue_full {b : Byte} {s : State} (h : Config.QCAP ≤ s.card.receiveQueue.length) :
    (received b s).card.receiveQueue = s.card.receiveQueue := by
  rw [received_card, receiveCard, tryEnqueue_full b h]

theorem received_inputFlags (b : Byte) (s : State) : (received b s).card.inputFlags = s.card.inputFlags := by
  rw [received_card]; rfl

theorem receiveCard_room {b : Byte} {c : CardState} (h : c.receiveQueue.length < Config.QCAP) :
    receiveCard b c = { c with receiveQueue := c.receiveQueue ++ [b] } := by
  rw [receiveCard, tryEnqueue_room b h]

/-- A byte leaves a queue that holds one non-empty. -/
theorem queueIsEmpty_received {b : Byte} {s : State} (h : s.card.receiveQueue ≠ []) :
    queueIsEmpty (received b s).card.receiveQueue = queueIsEmpty s.card.receiveQueue := by
  rw [queueIsEmpty_eq_false.2 h, queueIsEmpty_eq_false]
  rcases Nat.lt_or_ge s.card.receiveQueue.length Config.QCAP with hl | hl
  · rw [received_queue_room hl]; exact List.append_ne_nil_of_left_ne_nil h _
  · rw [received_queue_full hl]; exact h

/-! ## Each operation on the card -/

theorem setInputFlags_card (s : State) (v : Byte) : (s.setInputFlags v).card = { s.card with inputFlags := v } := rfl
theorem setOutputFlags_card (s : State) (v : Byte) : (s.setOutputFlags v).card = { s.card with outputFlags := v } := rfl
theorem setPending_card (s : State) (p : HostPending) : (s.setPending p).card = s.card := rfl
theorem logRead_card (s : State) (src : ReadSource) (b : Byte) : (s.logRead src b).card = s.card := rfl
theorem emitTx_card (v : Byte) (s : State) : (emitTx v s).card = s.card := rfl
theorem finishDataIn_card (b : Byte) (q : List Byte) (s : State) :
    (finishDataIn b q s).card =
      { s.card with receiveQueue := q, inputFlags := dataReadFlags s.card.inputFlags } := rfl

/-! ## The orders that agree -/

/-- Where neither order stalls a read, the completion changes nothing. -/
theorem completed_card_eq {u v : State} {b : Byte} (hu : u.hostPending = .idle) (hv : v.hostPending = .idle)
    (h : u.card = receiveCard b v.card) : (completeDataIn u).card = (completeDataIn (received b v)).card := by
  rw [completeDataIn_idle hu, completeDataIn_idle ((received_hostPending b v).trans hv), received_card, h]

section
variable {s u v : State} {b : Byte}

/-- A status read that finds a byte queued in both orders. -/
theorem statusRead_orders_agree (hp : s.hostPending = .idle) (hq : s.card.receiveQueue ≠ [])
    (hu : exec .rdFlagsIn (received b s) = .next u) (hv : exec .rdFlagsIn s = .next v) :
    (completeDataIn u).card = (completeDataIn (received b v)).card := by
  have hpr : (received b s).hostPending = .idle := (received_hostPending b s).trans hp
  cases (exec_rdFlagsIn hpr).symm.trans hu
  cases (exec_rdFlagsIn hp).symm.trans hv
  refine completed_card_eq hpr hp ?_
  rw [queueIsEmpty_received hq, setInputFlags_card, logRead_card, received_card]
  rfl

/-- A data-in read with room for the byte: on an empty queue the read stalls in one order, then completes. -/
theorem dataRead_orders_agree (hp : s.hostPending = .idle) (hl : s.card.receiveQueue.length < Config.QCAP)
    (hu : exec .rdDataIn (received b s) = .next u) (hv : exec .rdDataIn s = .next v) :
    (completeDataIn u).card = (completeDataIn (received b v)).card := by
  have hpr : (received b s).hostPending = .idle := (received_hostPending b s).trans hp
  have hqr := received_queue_room (b := b) hl
  cases hq : s.card.receiveQueue with
  | nil =>
    rw [hq, List.nil_append] at hqr
    cases (exec_rdDataIn_cons hpr hqr).symm.trans hu
    cases (exec_rdDataIn_nil hp hq).symm.trans hv
    have hqw : (received b (s.setPending .stalledOnDataIn)).card.receiveQueue = [b] := by
      rw [received_card, setPending_card, ← received_card, hqr]
    rw [completeDataIn_idle (s := finishDataIn b [] (received b s)) hpr,
      completeDataIn_enabled (received_hostPending b _) hqw, setPending_card, finishDataIn_card, finishDataIn_card,
      received_card, received_card, setPending_card]
  | cons c q =>
    rw [hq, List.cons_append] at hqr
    cases (exec_rdDataIn_cons hpr hqr).symm.trans hu
    cases (exec_rdDataIn_cons hp hq).symm.trans hv
    have hlq : q.length < Config.QCAP := Nat.lt_of_succ_lt (by simpa only [hq, List.length_cons] using hl)
    refine completed_card_eq hpr hp ?_
    rw [receiveCard_room (c := (finishDataIn c q s).card) hlq, finishDataIn_card, finishDataIn_card, received_card]
    rfl

/-- Outside the three cases the orders agree: the events but the two reads and RESET do not touch the queue. -/
theorem orders_agree {j : Instr} (hp : s.hostPending = .idle) (hj : ∀ c, j ≠ .rxByte c)
    (hflags : ¬ (j = .rdFlagsIn ∧ s.card.receiveQueue = []))
    (hdata : ¬ (j = .rdDataIn ∧ 512 ≤ s.card.receiveQueue.length)) (hreset : j ≠ .reset)
    (hu : exec j (received b s) = .next u) (hv : exec j s = .next v) :
    (completeDataIn u).card = (completeDataIn (received b v)).card := by
  have hpr : (received b s).hostPending = .idle := (received_hostPending b s).trans hp
  cases eventKind j with
  | statusRead => exact statusRead_orders_agree hp (fun hq => hflags ⟨rfl, hq⟩) hu hv
  | dataRead => exact dataRead_orders_agree hp (Nat.lt_of_not_le fun hl => hdata ⟨rfl, hl⟩) hu hv
  | dataWrite d =>
    cases (exec_wrDataOut d hpr).symm.trans hu
    cases (exec_wrDataOut d hp).symm.trans hv
    refine completed_card_eq hpr hp ?_
    rw [setInputFlags_card, emitTx_card, received_card]
    rfl
  | flagsWrite d =>
    cases (exec_wrFlagsOut d hpr).symm.trans hu
    cases (exec_wrFlagsOut d hp).symm.trans hv
    refine completed_card_eq hpr hp ?_
    rw [setInputFlags_card, setOutputFlags_card, received_card]
    rfl
  | reset => exact absurd rfl hreset
  | inboundByte c => exact absurd rfl (hj c)
  | nopRead j off h =>
    cases ((h _).trans (readNop_idle off hpr)).symm.trans hu
    cases ((h _).trans (readNop_idle off hp)).symm.trans hv
    exact completed_card_eq hpr hp (received_card b s)
  | nopWrite j h =>
    cases ((h _).trans (hostStep_idle hpr id)).symm.trans hu
    cases ((h _).trans (hostStep_idle hp id)).symm.trans hv
    exact completed_card_eq hpr hp (received_card b s)

/-! ## The three that differ -/

/-- A status read on an empty queue clears bit 7 only if the byte came before it. -/
theorem statusRead_orders_differ (hp : s.hostPending = .idle) (hq : s.card.receiveQueue = [])
    (hreq : receiveRequest s.card.inputFlags = true)
    (hu : exec .rdFlagsIn (received b s) = .next u) (hv : exec .rdFlagsIn s = .next v) :
    receiveRequest u.card.inputFlags = false ∧ receiveRequest (received b v).card.inputFlags = true := by
  cases (exec_rdFlagsIn ((received_hostPending b s).trans hp)).symm.trans hu
  cases (exec_rdFlagsIn hp).symm.trans hv
  have hl : s.card.receiveQueue.length < Config.QCAP := by simp [hq]
  have hqr : (received b s).card.receiveQueue = [b] := by rw [received_queue_room hl, hq, List.nil_append]
  exact ⟨by simp [hqr], by rw [received_inputFlags]; simp [hq, hreq]⟩

/-- A data-in read on a full queue makes room for a byte that comes after it; one that came before is dropped. -/
theorem dataRead_orders_differ (hp : s.hostPending = .idle) (hl : s.card.receiveQueue.length = Config.QCAP)
    (hu : exec .rdDataIn (received b s) = .next u) (hv : exec .rdDataIn s = .next v) :
    u.card.receiveQueue.length = 511 ∧ (received b v).card.receiveQueue.length = 512 := by
  obtain ⟨c, q, hq⟩ : ∃ c q, s.card.receiveQueue = c :: q :=
    List.exists_cons_of_length_pos (hl ▸ by decide)
  have hqr := (received_queue_full (b := b) hl.ge).trans hq
  cases (exec_rdDataIn_cons ((received_hostPending b s).trans hp) hqr).symm.trans hu
  cases (exec_rdDataIn_cons hp hq).symm.trans hv
  have hlq : q.length = 511 := Nat.succ_inj.1 ((congrArg List.length hq).symm.trans hl)
  refine ⟨hlq, ?_⟩
  rw [received_queue_room (by rw [finishDataIn_receiveQueue, hlq]; decide), finishDataIn_receiveQueue,
    List.length_append, hlq]
  rfl

/-- RESET clears a byte that came before it and leaves one that comes after. -/
theorem reset_orders_differ (hp : s.hostPending = .idle)
    (hu : exec .reset (received b s) = .next u) (hv : exec .reset s = .next v) :
    u.card.receiveQueue = [] ∧ (received b v).card.receiveQueue = [b] := by
  cases (exec_reset ((received_hostPending b s).trans hp)).symm.trans hu
  cases (exec_reset hp).symm.trans hv
  exact ⟨rfl, received_queue_room (by decide : 0 < Config.QCAP)⟩

end

/-- Settles O42: both orders complete, and each event falls under one of the lemmas above. -/
theorem simultaneousEventsDifferInThreeCases : Obligations.SimultaneousEventsDifferInThreeCases := by
  intro s b j hp hj
  obtain ⟨u, hu⟩ := exec_total j (received b s)
  obtain ⟨v, hv⟩ := exec_total j s
  refine ⟨received b s, u, v, received b v, exec_rxByte b s, hu, hv, exec_rxByte b v,
    fun hflags hdata hreset => orders_agree hp hj hflags hdata hreset hu hv, ?_, ?_, ?_⟩
  · rintro rfl hq hreq
    exact statusRead_orders_differ hp hq hreq hu hv
  · rintro rfl hl
    exact dataRead_orders_differ hp hl hu hv
  · rintro rfl
    exact reset_orders_differ hp hu hv

end Sys2Proof.Machine
end

section
/-! The event word (R93 to R99): each event against its word, in both directions, and against its row of the opcode
table. `Spells` is the middle term: the encoder, the decoder and the table are each compared with it. -/

namespace Sys2Proof

/-- The word of an event by its format: a read or a write is what the dispatcher selects at its offset (R94), beside
them the inbound byte (R95) and RESET (R96). -/
inductive Spells : Word → Instr → Prop where
  | read (off : Offset) : Spells (readWord off) (dispatchRead off)
  | write (off : Offset) (d : Byte) : Spells (writeWord off d) (dispatchWrite off d)
  | inboundByte (d : Byte) : Spells (rxbWord d) (.rxByte d)
  | reset : Spells rstWord .reset

/-! ## The encoder -/

theorem spells_encode (i : Instr) : Spells (encode i) i := by
  cases i
  case rdFlagsIn | rdDataIn | rdNop0 | rdNop1 | rdNop2 | rdNop3 | rdNop4 | rdNop5 | rdNop6 | rdNop7 | rdNop8 | rdNop9
      | rdNopA | rdNopC | rdNopD | rdNopF =>
    exact .read _
  case wrDataOut d | wrFlagsOut d | wrNop0 d | wrNop1 d | wrNop2 d | wrNop3 d | wrNop4 d | wrNop5 d | wrNop6 d
      | wrNop8 d | wrNop9 d | wrNopA d | wrNopB d | wrNopC d | wrNopE d | wrNopF d =>
    exact .write _ d
  case rxByte d => exact .inboundByte d
  case reset => exact .reset

/-- A read at each of the 16 offsets has the word of that offset. -/
theorem encode_dispatchRead : ∀ off : Offset, encode (dispatchRead off) = readWord off := by decide

theorem encode_dispatchWrite (off : Offset) (d : Byte) : encode (dispatchWrite off d) = writeWord off d := by
  obtain ⟨⟨n, hn⟩⟩ := off
  interval_cases n <;> rfl

theorem Spells.encode_eq {w : Word} {i : Instr} (h : Spells w i) : encode i = w := by
  cases h with
  | read off => exact encode_dispatchRead off
  | write off d => exact encode_dispatchWrite off d
  | inboundByte d => rfl
  | reset => rfl

/-! ## The decoder -/

theorem Spells.decode_eq {w : Word} {i : Instr} (h : Spells w i) : decode w = .ok i := by
  cases h with
  | read off => exact decode_readWord off
  | write off d => exact decode_writeWord off d
  | inboundByte d => exact decode_rxbWord d
  | reset => exact decode_rstWord

/-- Bit `j` of two words that agree on a field of bits around it. -/
theorem getLsbD_eq_of_field {w v : Word} {start len : Nat} (h : w.extractLsb' start len = v.extractLsb' start len)
    {j : Nat} (hs : start ≤ j) (hl : j < start + len) : w.getLsbD j = v.getLsbD j := by
  have hj := congrArg (fun x => x.getLsbD (j - start)) h
  have hlt : j - start < len := by omega
  simpa [BitVec.getLsbD_extractLsb', hlt, Nat.add_sub_cancel' hs] using hj

/-- The five fields are the whole word (R93). -/
theorem word_eq_of_fields {w v : Word} (hcls : fieldCls w = fieldCls v) (hz : fieldZ w = fieldZ v)
    (hk : fieldK w = fieldK v) (hoff : fieldOff w = fieldOff v) (hd : fieldD w = fieldD v) : w = v := by
  refine BitVec.eq_of_getLsbD_eq fun j hj => ?_
  obtain h | ⟨h, h'⟩ | rfl | rfl | h : j < 8 ∨ (8 ≤ j ∧ j < 12) ∨ j = 12 ∨ j = 13 ∨ 14 ≤ j := by omega
  · exact getLsbD_eq_of_field hd (Nat.zero_le j) (by omega)
  · exact getLsbD_eq_of_field hoff h h'
  · exact hk
  · exact hz
  · exact getLsbD_eq_of_field hcls h hj

/-- A word of class `01` with no stray bit is that of its byte (R95). -/
theorem rxbWord_fieldD {w : Word} (hz : fieldZ w = false) (hcls : fieldCls w = 0b01#2) (hk : fieldK w = false)
    (hoff : fieldOff w = 0) : rxbWord (fieldD w) = w :=
  word_eq_of_fields (by simp [hcls]) (by simp [hz]) (by simp [hk]) (by simp [hoff]) (by simp)

/-- A word of class `00` is that of its access (R94). -/
theorem accWord_fields {w : Word} (hz : fieldZ w = false) (hcls : fieldCls w = 0b00#2) :
    accWord (fieldK w) (fieldOff w) (fieldD w) = w :=
  word_eq_of_fields (by simp [hcls]) (by simp [hz]) (by simp) (by simp) (by simp)

theorem readWord_fieldOff {w : Word} (hz : fieldZ w = false) (hcls : fieldCls w = 0b00#2) (hk : fieldK w = false)
    (hd : fieldD w = 0#8) : readWord (fieldOff w) = w := by
  rw [readWord, ← hk, ← hd, accWord_fields hz hcls]

theorem writeWord_fields {w : Word} (hz : fieldZ w = false) (hcls : fieldCls w = 0b00#2) (hk : fieldK w = true) :
    writeWord (fieldOff w) (fieldD w) = w := by
  rw [writeWord, ← hk, accWord_fields hz hcls]

theorem class_eq_acc : ∀ {c : BitVec 2}, c ≠ 0b11#2 → c ≠ 0b10#2 → c ≠ 0b01#2 → c = 0b00#2 := by decide

/-- The decoder accepts no word but those of the four formats (R98, R99), by its branches. -/
theorem spells_of_decode {w : Word} {i : Instr} (h : decode w = .ok i) : Spells w i := by
  unfold decode at h
  split at h; · cases h
  next hz =>
  replace hz := eq_false_of_ne_true hz
  split at h; · cases h
  next h11 =>
  split at h
  · split at h
    next hw => cases h; exact hw ▸ .reset
    next => cases h
  next h10 =>
  split at h
  next h01 =>
    split at h
    next hko =>
      cases h
      have hs := Spells.inboundByte (fieldD w)
      rwa [rxbWord_fieldD hz h01 hko.1 hko.2] at hs
    next => cases h
  next h01 =>
  have h00 := class_eq_acc h11 h10 h01
  split at h
  next hk =>
    cases h
    have hs := Spells.write (fieldOff w) (fieldD w)
    rwa [writeWord_fields hz h00 hk] at hs
  next hk =>
    split at h
    next hd =>
      cases h
      have hs := Spells.read (fieldOff w)
      rwa [readWord_fieldOff hz h00 (eq_false_of_ne_true hk) hd] at hs
    next => cases h

/-- Settles O2: an event's word is of its format, and the decoder reads each format back. -/
theorem decodeOfEncodeIsTheEvent : Obligations.DecodeOfEncodeIsTheEvent :=
  fun i => (spells_encode i).decode_eq

/-- Settles O3: an accepted word is of one of the formats, and the encoder gives each back. -/
theorem encodeOfDecodeIsTheWord : Obligations.EncodeOfDecodeIsTheWord :=
  fun _ _ h => (spells_of_decode h).encode_eq

/-- Settles O1, by running the decoder on the vectors. -/
theorem eventWordsDecodeAsWritten : Obligations.EventWordsDecodeAsWritten := by
  unfold Obligations.EventWordsDecodeAsWritten
  decide

/-! ## The opcode table -/

/-- The row of a read fixes all 16 bits (R94). -/
def readRow (off : Offset) : OpcodeRow := ⟨(dispatchRead off).mnemonic, readWord off, 0xFFFF#16⟩
/-- The row of a write leaves the data byte free (R94). -/
def writeRow (off : Offset) : OpcodeRow := ⟨(dispatchWrite off 0#8).mnemonic, writeWord off 0#8, 0xFF00#16⟩
/-- The row of the inbound byte leaves the data byte free (R95). -/
def rxbRow : OpcodeRow := ⟨"RX_BYTE", rxbWord 0#8, 0xFF00#16⟩
/-- The row of RESET is one word (R96). -/
def rstRow : OpcodeRow := ⟨"RESET", rstWord, 0xFFFF#16⟩

theorem readRow_mem : ∀ off : Offset, readRow off ∈ opcodeTable := by decide
theorem writeRow_mem : ∀ off : Offset, writeRow off ∈ opcodeTable := by decide
theorem rxbRow_mem : rxbRow ∈ opcodeTable := by decide
theorem rstRow_mem : rstRow ∈ opcodeTable := by decide

theorem opcodeTable_cases : ∀ r ∈ opcodeTable,
    (∃ off, r = readRow off) ∨ (∃ off, r = writeRow off) ∨ r = rxbRow ∨ r = rstRow := by decide

theorem mnemonic_dispatchWrite (off : Offset) (d : Byte) :
    (dispatchWrite off d).mnemonic = (dispatchWrite off 0#8).mnemonic := by
  obtain ⟨⟨n, hn⟩⟩ := off
  interval_cases n <;> rfl

/-! ### The words a row covers -/

/-- A row whose mask keeps all 16 bits covers its pattern alone. -/
theorem covers_fullMask_iff {m : String} {p w : Word} :
    OpcodeRow.covers ⟨m, p, 0xFFFF#16⟩ w = true ↔ w = p := by
  rw [OpcodeRow.covers, beq_iff_eq, show 0xFFFF#16 = BitVec.allOnes 16 from rfl, BitVec.and_allOnes]

/-- The high byte under the mask, and the data byte, are the whole word. -/
theorem eq_of_highByte_of_fieldD {w v : Word} (hm : w &&& 0xFF00#16 = v &&& 0xFF00#16) (hd : fieldD w = fieldD v) :
    w = v := by
  refine BitVec.eq_of_getLsbD_eq fun j hj => ?_
  rcases Nat.lt_or_ge j 8 with h | h
  · exact getLsbD_eq_of_field hd (Nat.zero_le j) (by omega)
  · have hbit := congrArg (fun x => x.getLsbD j) hm
    have hmask : (0xFF00#16).getLsbD j = true := by interval_cases j <;> rfl
    simpa [hmask] using hbit

/-- A row whose mask drops the data byte covers the words of a format with that byte at every value. -/
theorem covers_dataMask_iff {m : String} {w : Word} {format : Byte → Word}
    (hmask : ∀ d, format d &&& 0xFF00#16 = format 0#8) (hdata : ∀ d, fieldD (format d) = d) :
    OpcodeRow.covers ⟨m, format 0#8, 0xFF00#16⟩ w = true ↔ ∃ d, w = format d := by
  rw [OpcodeRow.covers, beq_iff_eq]
  constructor
  · intro h
    exact ⟨fieldD w, eq_of_highByte_of_fieldD (h.trans (hmask _).symm) (hdata _).symm⟩
  · rintro ⟨d, rfl⟩
    exact hmask d

theorem readRow_covers_iff {off : Offset} {w : Word} : (readRow off).covers w = true ↔ w = readWord off :=
  covers_fullMask_iff

theorem writeRow_covers_iff {off : Offset} {w : Word} : (writeRow off).covers w = true ↔ ∃ d, w = writeWord off d :=
  covers_dataMask_iff (Laws.TableRow.writeWord_masked off) (fieldD_accWord true off)

theorem rxbRow_covers_iff {w : Word} : rxbRow.covers w = true ↔ ∃ d, w = rxbWord d :=
  covers_dataMask_iff Laws.TableRow.rxbWord_masked fieldD_rxbWord

theorem rstRow_covers_iff {w : Word} : rstRow.covers w = true ↔ w = rstWord := covers_fullMask_iff

theorem Spells.exists_row {w : Word} {i : Instr} (h : Spells w i) :
    ∃ r ∈ opcodeTable, r.mnemonic = i.mnemonic ∧ r.covers w = true := by
  cases h with
  | read off => exact ⟨_, readRow_mem off, rfl, readRow_covers_iff.2 rfl⟩
  | write off d => exact ⟨_, writeRow_mem off, (mnemonic_dispatchWrite off d).symm, writeRow_covers_iff.2 ⟨d, rfl⟩⟩
  | inboundByte d => exact ⟨_, rxbRow_mem, rfl, rxbRow_covers_iff.2 ⟨d, rfl⟩⟩
  | reset => exact ⟨_, rstRow_mem, rfl, rstRow_covers_iff.2 rfl⟩

theorem exists_spells_of_covers {w : Word} {r : OpcodeRow} (hr : r ∈ opcodeTable) (h : r.covers w = true) :
    ∃ i, Spells w i ∧ i.mnemonic = r.mnemonic := by
  rcases opcodeTable_cases r hr with ⟨off, rfl⟩ | ⟨off, rfl⟩ | rfl | rfl
  · obtain rfl := readRow_covers_iff.1 h
    exact ⟨_, .read off, rfl⟩
  · obtain ⟨d, rfl⟩ := writeRow_covers_iff.1 h
    exact ⟨_, .write off d, mnemonic_dispatchWrite off d⟩
  · obtain ⟨d, rfl⟩ := rxbRow_covers_iff.1 h
    exact ⟨_, .inboundByte d, rfl⟩
  · obtain rfl := rstRow_covers_iff.1 h
    exact ⟨_, .reset, rfl⟩

/-- Settles O4: the rows cover the words of the four formats, each under its event's mnemonic. -/
theorem decoderAgreesWithOpcodeTable : Obligations.DecoderAgreesWithOpcodeTable := by
  refine ⟨fun w i h => (spells_of_decode h).exists_row, fun w r hr h => ?_⟩
  obtain ⟨i, hs, hm⟩ := exists_spells_of_covers hr h
  exact ⟨i, hs.decode_eq, hm⟩

/-! ## The dispatcher, and its words as numbers -/

theorem readRow_mem_readNopRows : ∀ {off : Offset}, off ≠ 0xB#4 → off ≠ 0xE#4 → readRow off ∈ readNopRows := by
  decide
theorem writeRow_mem_writeNopRows : ∀ {off : Offset}, off ≠ 0x7#4 → off ≠ 0xD#4 → writeRow off ∈ writeNopRows := by
  decide

/-- The word of a read as a number (R94). -/
theorem readWord_toNat : ∀ off : Offset, (readWord off).toNat = 0x100 * off.toNat := by decide

theorem writeWord_zero_toNat : ∀ off : Offset, (writeWord off 0#8).toNat = 0x1000 + 0x100 * off.toNat := by decide

/-- The data byte of a write stands apart from its other fields. -/
theorem writeWord_eq_add (off : Offset) (d : Byte) : writeWord off d = writeWord off 0#8 + d.setWidth 16 := by
  rw [BitVec.add_eq_or_of_and_eq_zero]
  · simp [writeWord, accWord]
  · ext j hj
    interval_cases j <;> simp [writeWord, accWord]

/-- The word of a write as a number (R94). -/
theorem writeWord_toNat (off : Offset) (d : Byte) :
    (writeWord off d).toNat = 0x1000 + 0x100 * off.toNat + d.toNat := by
  have hoff : off.toNat < 16 := off.isLt
  have hd : d.toNat < 256 := d.isLt
  rw [writeWord_eq_add, BitVec.toNat_add, writeWord_zero_toNat, BitVec.toNat_setWidth]
  omega

/-- Settles O5: the four operations by the register map, every other pair by its no-operation row. -/
theorem dispatchFollowsRegisterMap : Obligations.DispatchFollowsRegisterMap := by
  intro off v
  refine ⟨dispatchRead_flagsIn, dispatchRead_dataIn, dispatchWrite_dataOut v, dispatchWrite_flagsOut v,
    fun hf hd => ?_, fun hf hd => ?_⟩
  · exact ⟨_, readRow_mem_readNopRows hf hd, rfl, (encode_dispatchRead off).symm, readWord_toNat off⟩
  · exact ⟨_, writeRow_mem_writeNopRows hf hd, (mnemonic_dispatchWrite off v).symm,
      writeRow_covers_iff.2 ⟨v, encode_dispatchWrite off v⟩, writeWord_zero_toNat off⟩

end Sys2Proof
end

section
/-! Running a word: an access tuple against its event word (R90, R94), and a word that spells no event (R98, R99). -/

namespace Sys2Proof.Machine

/-- A tuple within the window runs the event that the dispatcher selects (R90, R91). -/
theorem runInput_access (off : Offset) (k : AccessKind) (v : Byte) (s : State) :
    runInput (.access 8 off.toNat k v) s = exec (dispatch off k v) s := by
  have hoff : offsetOperand off.toNat = off := (offsetOperand_eq_iff off.isLt).2 rfl
  exact runInput_of_inputEvent (inputEvent_access_iff.2 ⟨⟨rfl, off.isLt⟩, by rw [hoff]⟩) s

/-- Settles O8: the tuple and the word run the same event. -/
theorem accessTupleRunsAsItsEventWord : Obligations.AccessTupleRunsAsItsEventWord := by
  intro s off v
  rw [← writeWord_toNat, ← readWord_toNat]
  simp only [BitVec.ofNat_toNat, BitVec.setWidth_eq]
  exact ⟨(runInput_access off .read v s).trans (runInput_event (decode_readWord off) s).symm,
    (runInput_access off .write v s).trans (runInput_event (decode_writeWord off v) s).symm⟩

theorem runInput_refused {w : Word} {e : DecodeError} (hd : decode w = .error e) (s : State) :
    runInput (.event w) s = .refused (.noSuchEvent e) := by
  simp only [runInput, runWord, hd]

/-- A word that spells no event is not the HOST's (log entry 10). -/
theorem isHostInput_of_refused {w : Word} {e : DecodeError} (hd : decode w = .error e) :
    isHostInput (.event w) = false := by
  simp only [isHostInput, hd]

/-- Settles O7: no stall holds the word back, and running it refuses it. -/
theorem stepRefusesWordsThatSpellNoEvent : Obligations.StepRefusesWordsThatSpellNoEvent :=
  fun _ _ _ _ hi hd => (step_take (nextAction_listener_head hi (isHostInput_of_refused hd))).trans
    (runInput_refused hd _)

end Sys2Proof.Machine
end

section
/-! The status read (R120) and the data read (R121): the exact state each leaves in the spec's literals, the completion
of a stalled read (R34), and the inbound byte that lifts the stall (R201). -/

namespace Sys2Proof.Machine

/-! ## The data read and its completion (R121) -/

/-- The data read's four lines after the stall, with bit 7 set by the rule's `OR 0x80`. -/
theorem finishDataIn_eq (b : Byte) (q : List Byte) (s : State) :
    finishDataIn b q s =
      { s with
        card := { s.card with receiveQueue := q, inputFlags := s.card.inputFlags ||| 0x80#8 }
        readLog := s.readLog ++ [⟨.register 0xE#4, b⟩] } := by
  rw [← dataReadFlags_eq]
  rfl

theorem completeDataIn_eq {s : State} {b : Byte} {q : List Byte} (hp : s.hostPending = .stalledOnDataIn)
    (hq : s.card.receiveQueue = b :: q) :
    completeDataIn s =
      { s with
        card := { s.card with receiveQueue := q, inputFlags := s.card.inputFlags ||| 0x80#8 }
        hostPending := .idle
        readLog := s.readLog ++ [⟨.register 0xE#4, b⟩] } := by
  rw [completeDataIn_enabled hp hq, finishDataIn_eq]
  rfl

/-- Settles O17: by the read on an idle host, by the completion, and by the HOST's events held in between. -/
theorem dataReadEffect : Obligations.DataReadEffect :=
  ⟨encode_dispatchRead 0xE#4, fun _ => rfl,
    fun s b q hp hq => (exec_rdDataIn_cons hp hq).trans (congrArg _ (finishDataIn_eq b q s)),
    fun _ hp hq => exec_rdDataIn_nil hp hq,
    fun _ _ _ hp hq => completeDataIn_eq hp hq,
    fun _ _ hq => completeDataIn_empty hq,
    fun _ _ hp hi => exec_held hi hp⟩

/-! ## The completion as a step -/

/-- The marker is no HOST input, so the step takes it even from the HOST's turn. -/
theorem step_completion {s : State} {rest : List Input} (hi : s.inputs = .completion :: rest) :
    step s = .next (completeDataIn (s.setInputs rest)) :=
  step_take (nextAction_listener_head hi rfl)

/-- Settles O13: at a HOST input or at none the arbiter chooses the completion, and at its marker it is what runs. -/
theorem stalledReadCompletesFirst : Obligations.StalledReadCompletesFirst := by
  intro s b q hp hq
  constructor
  · intro hhost
    have hne : s.card.receiveQueue ≠ [] := hq ▸ List.cons_ne_nil b q
    exact (step_complete (nextAction_stalled_enabled hp hne hhost)).trans (congrArg _ (completeDataIn_eq hp hq))
  · intro rest hi
    exact (step_completion hi).trans (congrArg _ (completeDataIn_eq (s := s.setInputs rest) hp hq))

/-! ## The inbound byte that lifts the stall -/

/-- The LISTENER's first input is found past the HOST's, which stay in place. -/
theorem takeListener_past_host {pre post : List Input} {i : Input} (hpre : ∀ j ∈ pre, isHostInput j = true)
    (hi : isHostInput i = false) : takeListener (pre ++ i :: post) = some (i, pre ++ post) := by
  induction pre with
  | nil => simp [takeListener, hi]
  | cons j pre ih =>
    obtain ⟨hj, hpre⟩ := List.forall_mem_cons.1 hpre
    simp [takeListener, hj, ih hpre]

theorem nextAction_stalled_listener {s : State} {pre post : List Input} {i : Input}
    (hp : s.hostPending = .stalledOnDataIn) (hq : s.card.receiveQueue = []) (hin : s.inputs = pre ++ i :: post)
    (hpre : ∀ j ∈ pre, isHostInput j = true) (hi : isHostInput i = false) :
    nextAction s = .take i (pre ++ post) := by
  simp [nextAction, hp, hq, hin, takeListener_past_host hpre hi]

/-- On a stalled host with an empty queue the inbound byte is queued, past the HOST inputs that wait (R201). -/
theorem step_stalled_rxByte {s : State} {b : Byte} {pre post : List Input} (hp : s.hostPending = .stalledOnDataIn)
    (hq : s.card.receiveQueue = []) (hin : s.inputs = pre ++ .event (rxbWord b) :: post)
    (hpre : ∀ j ∈ pre, isHostInput j = true) :
    step s = .next ((s.setInputs (pre ++ post)).setQueue [b]) := by
  have hd : decode (rxbWord b) = .ok (.rxByte b) := decode_rxbWord b
  have hlistener : isHostInput (.event (rxbWord b)) = false := isHostInput_of_rxByte (inputEvent_event_iff.2 hd)
  have hroom : (s.setInputs (pre ++ post)).card.receiveQueue.length < Config.QCAP := by simp [hq]
  rw [step_take (nextAction_stalled_listener hp hq hin hpre hlistener), runInput_event hd, exec_rxByte_room b hroom,
    setInputs_receiveQueue, hq, List.nil_append]

/-- Settles O14: the first step queues the byte; then only HOST inputs are left, so the second is the completion. -/
theorem inboundByteLiftsTheStall : Obligations.InboundByteLiftsTheStall := by
  intro s b pre post hp hq hin hhost
  have hqueued := step_stalled_rxByte hp hq hin fun j hj => hhost j (List.mem_append_left post hj)
  have hleft : ∀ i rest, pre ++ post = i :: rest → isHostInput i = true := by
    intro i rest h
    exact hhost i (h ▸ List.mem_cons_self)
  have hcompleted := (stalledReadCompletesFirst ((s.setInputs (pre ++ post)).setQueue [b]) b [] hp rfl).1 hleft
  rw [run_succ 1 hqueued, run_succ 0 hcompleted, run_zero]
  simp [hq]

/-! ## The status read (R120) -/

theorem not_queueIsEmpty_iff {q : List Byte} : (!queueIsEmpty q) = true ↔ 0 < q.length := by
  rw [Bool.not_eq_true', queueIsEmpty_eq_false, List.length_pos_iff]

/-- Settles O16: the status read's one effect, with its flags as the rule's expression. -/
theorem statusReadEffect : Obligations.StatusReadEffect := by
  refine ⟨encode_dispatchRead 0xB#4, fun _ => rfl, fun s hp => ?_⟩
  rw [exec_rdFlagsIn hp, statusReadFlags_eq]
  simp only [not_queueIsEmpty_iff]
  rfl

/-- With the queue empty a status read toggles bit 6 and nothing else of the card. -/
theorem exec_rdFlagsIn_of_empty {s : State} (hp : s.hostPending = .idle) (hq : s.card.receiveQueue = []) :
    exec .rdFlagsIn s =
      .next ((s.logRead (.register Config.OFF_FLAGS_IN) s.card.inputFlags).setInputFlags
        (s.card.inputFlags ^^^ 0x40#8)) := by
  have hflags : statusReadFlags s.card.inputFlags false = s.card.inputFlags ^^^ 0x40#8 := rfl
  rw [exec_rdFlagsIn hp, hq, queueIsEmpty_nil, Bool.not_true, hflags]

/-- Settles O45: the first read leaves the host idle and the queue empty, so the second toggles bit 6 back. -/
theorem twoStatusReadsOnEmptyQueue : Obligations.TwoStatusReadsOnEmptyQueue := by
  intro s hp hq
  refine ⟨_, _, exec_rdFlagsIn_of_empty hp hq, exec_rdFlagsIn_of_empty hp hq, ?_, ?_⟩
  · have hrestored : s.card.inputFlags ^^^ 0x40#8 ^^^ 0x40#8 = s.card.inputFlags := by
      rw [BitVec.xor_assoc, BitVec.xor_self, BitVec.xor_zero]
    rw [setInputFlags_card, setInputFlags_inputFlags, hrestored]
    rfl
  · exact List.append_assoc s.readLog [_] [_]

end Sys2Proof.Machine
end

section
/-! The two register writes that carry an operation, data-out (R140) and flags-out (R141): each one's event word as a
number and the exact state it leaves in the spec's literals. -/

namespace Sys2Proof.Machine

/-- Settles O18: the word and the dispatch by the register map; on an idle host the byte is handed over and bit 6
cleared by the rule's `AND 0xBF`, with no case for a failed send. -/
theorem dataWriteEffect : Obligations.DataWriteEffect := by
  refine fun v => ⟨writeWord_toNat Config.OFF_DATA_OUT v, dispatchWrite_dataOut v, fun s hp => ?_⟩
  rw [exec_wrDataOut v hp, emitTx_eq, dataWriteFlags_eq]
  rfl

/-- R141 as it is written: bit 6 is set where the bit 1 written is clear. -/
theorem flagsWriteFlags_eq_of_clear (f v : Byte) :
    flagsWriteFlags f v = (f &&& 0xBF#8) ||| (if v.getLsbD 1 = false then 0x40#8 else 0x00#8) := by
  rw [flagsWriteFlags_eq]
  cases v.getLsbD 1 <;> rfl

/-- Settles O19: the word and the dispatch by the register map; on an idle host the mirror takes the byte and bit 6 the
rule's expression of it. -/
theorem flagsWriteEffect : Obligations.FlagsWriteEffect := by
  refine fun v => ⟨writeWord_toNat Config.OFF_FLAGS_OUT v, dispatchWrite_flagsOut v, fun s hp => ?_⟩
  rw [exec_wrFlagsOut v hp, flagsWriteFlags_eq_of_clear]
  rfl

end Sys2Proof.Machine
end

section
/-! The firmware windows' memory (R163, R165): a read after a write and after populating, and what a constructed card
serves. -/

namespace Sys2Proof.Machine

/-! ## A read after a write -/

theorem Memory.read_write_self {w : FwWindow} {a : Nat} (ha : a < w.size) (v : Byte) (m : Memory) :
    Memory.read w (Memory.write w m a v) a = v := by
  rw [Memory.write, if_pos ha]
  split
  case isTrue hv => exact (Memory.read_erase_self w a m).trans hv.symm
  case isFalse => exact Memory.read_insert_self w a v m

theorem Memory.read_write_other (w : FwWindow) {a a' : Nat} (v : Byte) (m : Memory) (h : a' ≠ a) :
    Memory.read w (Memory.write w m a v) a' = Memory.read w m a' := by
  unfold Memory.write
  split
  · split
    · exact Memory.read_erase_other w m h
    · exact Memory.read_insert_other w v m h
  · rfl

/-- Settles O47: at the offset written the entry or its absence reads as the byte, and no other entry moves. -/
theorem populatedByteReadsBack : Obligations.PopulatedByteReadsBack :=
  fun w m _ v ha => ⟨Memory.read_write_self ha v m, fun _ h => Memory.read_write_other w v m h⟩

/-! ## A read after populating -/

theorem Memory.read_populate_below (w : FwWindow) (vs : List Byte) {a off : Nat} (m : Memory) (h : off < a) :
    Memory.read w (Memory.populate w a vs m) off = Memory.read w m off := by
  induction vs generalizing a m with
  | nil => rfl
  | cons v vs ih =>
    exact (ih (Memory.write w m a v) (Nat.lt_succ_of_lt h)).trans (Memory.read_write_other w v m (Nat.ne_of_lt h))

/-- Within the window the `k`-th byte populated reads back, and past the last one the memory reads as before. -/
theorem Memory.read_populate_add {w : FwWindow} (vs : List Byte) {a k : Nat} (m : Memory) (h : a + k < w.size) :
    Memory.read w (Memory.populate w a vs m) (a + k) = vs[k]?.getD (Memory.read w m (a + k)) := by
  induction vs generalizing a k m with
  | nil => rfl
  | cons v vs ih =>
    cases k with
    | zero =>
      exact (Memory.read_populate_below w vs _ (Nat.lt_succ_self a)).trans (Memory.read_write_self h v m)
    | succ k =>
      have hassoc : a + (k + 1) = a + 1 + k := by omega
      have hother : a + 1 + k ≠ a := by omega
      rw [hassoc] at h ⊢
      rw [Memory.populate, ih _ h, Memory.read_write_other w v m hother, List.getElem?_cons_succ]

/-- A window populated from offset 0 on serves the image, and where the image has no byte what an unlisted offset reads
as. -/
theorem Memory.read_populate_image {w : FwWindow} (vs : List Byte) {off : Nat} (h : off < w.size) :
    Memory.read w (Memory.populate w 0 vs []) off = vs[off]?.getD (w.unlisted off) := by
  simpa using Memory.read_populate_add vs (a := 0) (k := off) [] (by simpa using h)

/-! ## Construction -/

/-- Construction populates each window with its image (R165). -/
theorem construct_firmware {peer : PeerEndpoint} {img : FirmwareImage} {s : State}
    (h : construct peer (some img) true = .ok s) :
    s.fwA = Memory.populate .a 0 img.fwA [] ∧ s.fwB = Memory.populate .b 0 img.fwB [] := by
  cases h
  exact ⟨rfl, rfl⟩

/-- Settles O48: both windows are populated from the empty memory, which is canonical and reads as the parameters. -/
theorem constructedCardServesTheImage : Obligations.ConstructedCardServesTheImage := by
  intro peer img s h
  obtain ⟨hA, hB⟩ := construct_firmware h
  rw [hA, hB]
  exact ⟨fun _ hoff => Memory.read_populate_image (w := .a) img.fwA hoff,
    fun _ hoff => Memory.read_populate_image (w := .b) img.fwB hoff,
    Memory.populate_wf img.fwA 0 rfl, Memory.populate_wf img.fwB 0 rfl⟩

end Sys2Proof.Machine
end

section
/-! The accesses on an idle host that change no card state: a register read or write with no operation (R160 to R162),
and a firmware read or write (R163, R164). -/

namespace Sys2Proof.Machine

/-! ## Register accesses with no operation -/

/-- The offsets at which a read has no operation, the rows of R162. -/
def readNopOffsets : List Offset := [0x0, 0x1, 0x2, 0x3, 0x4, 0x5, 0x6, 0x7, 0x8, 0x9, 0xA, 0xC, 0xD, 0xF]

/-- The offsets at which a write has no operation, the rows of R162. -/
def writeNopOffsets : List Offset := [0x0, 0x1, 0x2, 0x3, 0x4, 0x5, 0x6, 0x8, 0x9, 0xA, 0xB, 0xC, 0xE, 0xF]

theorem exec_dispatchRead_of_mem {off : Offset} (h : off ∈ readNopOffsets) (s : State) :
    exec (dispatchRead off) s = readNop off s := by
  unfold readNopOffsets at h
  fin_cases h <;> rfl

theorem exec_dispatchWrite_of_mem {off : Offset} (h : off ∈ writeNopOffsets) (v : Byte) (s : State) :
    exec (dispatchWrite off v) s = writeNop off v s := by
  unfold writeNopOffsets at h
  fin_cases h <;> rfl

/-- Settles O20: each row is what the dispatcher selects at its offset, and runs as a read with no operation there. -/
theorem readNopEffect : Obligations.ReadNopEffect := by
  intro p hp
  obtain ⟨off, hoff, rfl⟩ : ∃ off ∈ readNopOffsets, (dispatchRead off, off) = p := List.mem_map.1 hp
  refine ⟨?_, fun _ => rfl, fun s hidle => ?_⟩
  · rw [encode_dispatchRead, readWord_toNat]
  · exact (exec_dispatchRead_of_mem hoff s).trans (readNop_idle off hidle)

/-- Settles O21: each row is what the dispatcher selects at its offset, and runs as a write with no operation there. -/
theorem writeNopEffect : Obligations.WriteNopEffect := by
  intro v p hp
  obtain ⟨off, hoff, rfl⟩ : ∃ off ∈ writeNopOffsets, (dispatchWrite off v, off) = p := List.mem_map.1 hp
  refine ⟨?_, rfl, fun s hidle => ?_⟩
  · rw [encode_dispatchWrite, writeWord_toNat]
  · exact (exec_dispatchWrite_of_mem hoff v s).trans (writeNop_idle off v hidle)

/-! ## Firmware accesses -/

theorem firmwareRead_idle {w : FwWindow} {off : Nat} {s : State} (hoff : off < w.size) (hp : s.hostPending = .idle) :
    firmwareRead w off s = .next (s.logRead (.firmware w off) (Memory.read w (s.firmware w) off)) :=
  (if_pos hoff).trans (hostStep_idle hp _)

theorem firmwareWrite_idle {w : FwWindow} {off : Nat} {s : State} (hoff : off < w.size) (v : Byte)
    (hp : s.hostPending = .idle) : firmwareWrite w off v s = .next s :=
  (if_pos hoff).trans (hostStep_idle hp _)

/-- Settles O25: within the bound of each window both accesses are a host step, and the host is idle. -/
theorem firmwareAccessEffect : Obligations.FirmwareAccessEffect :=
  fun _ _ v hp =>
    ⟨fun hoff => ⟨firmwareRead_idle (w := .a) hoff hp, firmwareWrite_idle (w := .a) hoff v hp⟩,
      fun hoff => ⟨firmwareRead_idle (w := .b) hoff hp, firmwareWrite_idle (w := .b) hoff v hp⟩⟩

end Sys2Proof.Machine
end

section
/-! The receive queue's operations by themselves (R181, R183, R184). -/

namespace Sys2Proof.Machine

theorem queueIsEmpty_iff_length {q : List Byte} : queueIsEmpty q = true ↔ q.length = 0 :=
  queueIsEmpty_iff.trans List.length_eq_zero_iff.symm

theorem clearQueue_room (q : List Byte) : (clearQueue q).length < Config.QCAP := by
  rw [clearQueue_eq]
  decide

/-- A cleared queue has room, so the next byte is appended and is the only one (R181, R184). -/
theorem tryEnqueue_clearQueue (q : List Byte) (b : Byte) : tryEnqueue (clearQueue q) b = ([b], true) :=
  tryEnqueue_room b (clearQueue_room q)

/-- Settles O46: the capacity `Config.QCAP` is 512, and each part is the operation's own lemma. -/
theorem queuePrimitivesAsStated : Obligations.QueuePrimitivesAsStated :=
  fun q b => ⟨tryEnqueue_room b, tryEnqueue_full b, queueIsEmpty_iff_length, clearQueue_eq q, tryEnqueue_clearQueue q b⟩

end Sys2Proof.Machine
end

section
/-! What every step keeps (R208, R165, R75, R36): the peer and the firmware windows, and the three histories but for
what is added at their ends. -/

namespace Sys2Proof.Machine

/-- `t` has the peer and the firmware windows of `s`, and its histories continue those of `s`. It reads no other field,
so the lemmas below serve for states that differ in flags, queue, stall and inputs too. -/
def Continues (s t : State) : Prop :=
  t.card.peerEndpoint = s.card.peerEndpoint ∧ t.fwA = s.fwA ∧ t.fwB = s.fwB ∧
  s.txLog <+: t.txLog ∧ s.warnLog <+: t.warnLog ∧ s.readLog <+: t.readLog

theorem Continues.refl (s : State) : Continues s s :=
  ⟨rfl, rfl, rfl, List.prefix_rfl, List.prefix_rfl, List.prefix_rfl⟩

/-- R13: a byte returned on the bus is added at the end. -/
theorem continues_logRead (s : State) (src : ReadSource) (b : Byte) : Continues s (s.logRead src b) :=
  ⟨rfl, rfl, rfl, List.prefix_rfl, List.prefix_rfl, List.prefix_append _ _⟩

/-- R221: a diagnostic event is added at the end. -/
theorem continues_warn (s : State) (k : WarnKind) : Continues s (s.warn k) :=
  ⟨rfl, rfl, rfl, List.prefix_rfl, List.prefix_append _ _, List.prefix_rfl⟩

/-- R205, R206: the send is recorded, and its failure too if it fails. -/
theorem continues_emitTx (v : Byte) (s : State) : Continues s (emitTx v s) :=
  ⟨rfl, rfl, rfl, List.prefix_append _ _, List.prefix_append _ _, List.prefix_rfl⟩

theorem hostEffect_continues {s t : State} (he : HostEffect s t) : Continues s t := by
  cases he with
  | statusRead | dataRead | nopRead => exact continues_logRead s _ _
  | dataWrite v => exact continues_emitTx v s
  | dataStall | flagsWrite | nopWrite | reset => exact Continues.refl s

theorem inputEffect_continues {i : Input} {s t : State} (he : InputEffect i s t) : Continues s t := by
  cases he with
  | host _ _ h => exact hostEffect_continues h
  | drop | receiveFailure => exact continues_warn s _
  | completion | firmwareRead => exact continues_logRead s _ _
  | none | enqueue => exact Continues.refl s

/-- Settles O31: a step does nothing, completes a stalled read, or has the effect of the input it takes. -/
theorem stepsKeepWhatConstructionFixed : Obligations.StepsKeepWhatConstructionFixed := by
  intro s t hstep
  rcases step_cases hstep with ⟨-, rfl⟩ | ⟨b, q, -, -, rfl⟩ | ⟨i, rest, -, he⟩
  · exact Continues.refl _
  · exact continues_logRead s _ _
  · have h : Continues (s.setInputs rest) t := inputEffect_continues he
    exact h

end Sys2Proof.Machine
end

section
/-! The LISTENER's steps: an inbound byte (R201), a receive failure (R203), and a datagram as one inbound byte after
another (R202). -/

namespace Sys2Proof.Machine

/-! ## One byte, one failure -/

/-- The word of an inbound byte as a number (R95): the data byte stands below the class bits. -/
theorem rxbWord_toNat (b : Byte) : (rxbWord b).toNat = 0x4000 + b.toNat := by
  have hb : b.toNat < 2 ^ 14 := b.isLt.trans (by decide)
  have hw : b.toNat < 2 ^ 16 := b.isLt.trans (by decide)
  rw [rxbWord, BitVec.toNat_or, BitVec.toNat_setWidth, Nat.mod_eq_of_lt hw]
  exact (Nat.two_pow_add_eq_or_of_lt hb 1).symm

/-- Settles O22: the word of the byte, and the byte kept or dropped by the room at capacity `Config.QCAP` = 512. -/
theorem inboundByteEffect : Obligations.InboundByteEffect :=
  fun b => ⟨rxbWord_toNat b, fun _ => ⟨exec_rxByte_room b, exec_rxByte_full b⟩⟩

/-- Settles O24: a receive failure is no HOST input, so the arbiter takes it from the head in every state. -/
theorem receiveFailureEffect : Obligations.ReceiveFailureEffect :=
  fun _ _ hi => step_take (nextAction_listener_head hi rfl)

/-! ## A datagram -/

theorem received_inputs (b : Byte) (s : State) : (received b s).inputs = s.inputs := by
  unfold received
  split <;> rfl

theorem received_setInputs (b : Byte) (s : State) (is : List Input) :
    received b (s.setInputs is) = (received b s).setInputs is := by
  unfold received
  rw [apply_ite (State.setInputs · is)]
  rfl

/-- The state after a whole datagram: what fits the room left is queued, and each byte beyond it is a `QueueFull`. -/
def receivedDatagram (payload : List Byte) (s : State) : State :=
  { s with
    card := { s.card with
      receiveQueue := s.card.receiveQueue ++ payload.take (Config.QCAP - s.card.receiveQueue.length) }
    warnLog := s.warnLog ++
      List.replicate (payload.length - (Config.QCAP - s.card.receiveQueue.length)) .queueFull }

theorem receivedDatagram_nil (s : State) : receivedDatagram [] s = s := by simp [receivedDatagram]

/-- Below capacity the first byte is queued and takes up one of the places left. -/
theorem receivedDatagram_cons_room {b : Byte} {s : State} (bs : List Byte)
    (h : s.card.receiveQueue.length < Config.QCAP) :
    receivedDatagram (b :: bs) s = receivedDatagram bs (s.setQueue (s.card.receiveQueue ++ [b])) := by
  obtain ⟨room, hroom⟩ := Nat.exists_eq_add_of_lt h
  have hbefore : Config.QCAP - s.card.receiveQueue.length = room + 1 := by omega
  have hafter : Config.QCAP - (s.card.receiveQueue ++ [b]).length = room := by
    rw [List.length_append, List.length_singleton]; omega
  simp only [receivedDatagram, setQueue_receiveQueue, hbefore, hafter]
  simp [State.setQueue]

/-- At capacity no byte fits, so the first is one more `QueueFull`. -/
theorem receivedDatagram_cons_full {b : Byte} {s : State} (bs : List Byte)
    (h : Config.QCAP ≤ s.card.receiveQueue.length) :
    receivedDatagram (b :: bs) s = receivedDatagram bs (s.warn .queueFull) := by
  simp [receivedDatagram, State.warn, Nat.sub_eq_zero_of_le h, List.replicate_succ]

theorem receivedDatagram_cons (b : Byte) (bs : List Byte) (s : State) :
    receivedDatagram (b :: bs) s = receivedDatagram bs (received b s) := by
  unfold received
  split
  case isTrue h => exact receivedDatagram_cons_room bs h
  case isFalse h => exact receivedDatagram_cons_full bs (Nat.le_of_not_lt h)

/-- The first byte of a datagram at the head of the inputs is taken in every state. -/
theorem step_rxd {s : State} {b : Byte} {bs : List Byte} {rest : List Input}
    (hi : s.inputs = rxd (b :: bs) ++ rest) : step s = .next (received b (s.setInputs (rxd bs ++ rest))) :=
  (step_rxByte hi (decode_rxbWord b)).trans (exec_rxByte b _)

/-- A datagram is taken in one step per byte, by induction on its bytes. -/
theorem run_rxd (payload : List Byte) {s : State} {rest : List Input} (hi : s.inputs = rxd payload ++ rest) :
    run payload.length s = .next (receivedDatagram payload (s.setInputs rest)) := by
  induction payload generalizing s with
  | nil =>
    obtain rfl : s.inputs = rest := hi
    rw [receivedDatagram_nil]
    rfl
  | cons b bs ih =>
    calc run (bs.length + 1) s
        = run bs.length (received b (s.setInputs (rxd bs ++ rest))) := run_succ bs.length (step_rxd hi)
      _ = .next (receivedDatagram bs ((received b (s.setInputs (rxd bs ++ rest))).setInputs rest)) :=
          ih (received_inputs b _)
      _ = .next (receivedDatagram (b :: bs) (s.setInputs rest)) := by
          rw [← received_setInputs, receivedDatagram_cons]
          rfl

/-- Settles O41: the run over the datagram's bytes, with the state after it written out. -/
theorem datagramIsKeptUpToTheRoomLeft : Obligations.DatagramIsKeptUpToTheRoomLeft :=
  fun payload _ _ hi => run_rxd payload hi

end Sys2Proof.Machine
end

section
/-! Exceptions: the card raises none that stops it (R220, R230, R238), and the diagnostic events it does raise have their
causes (R221, R222, R224). -/

namespace Sys2Proof.Machine

/-! ## Inputs with a meaning never stop the card -/

/-- The arbiter takes inputs of the state only. -/
theorem mem_inputs_of_take {s : State} {i : Input} {rest : List Input} (h : nextAction s = .take i rest) :
    i ∈ s.inputs := by
  obtain ⟨pre, post, hi, -⟩ := nextAction_take h
  simp [hi]

/-- With every input well formed the step answers a next state: only an input taken could stop it. -/
theorem InputsWellFormed.step_total {s : State} (hs : InputsWellFormed s) : ∃ t, step s = .next t := by
  cases ha : nextAction s with
  | wait => exact ⟨s, step_wait ha⟩
  | complete => exact ⟨completeDataIn s, step_complete ha⟩
  | take i rest =>
    obtain ⟨t, ht⟩ := runInput_total (s.setInputs rest) (hs i (mem_inputs_of_take ha))
    exact ⟨t, (step_take ha).trans ht⟩

theorem InputsWellFormed.of_step {s t : State} (hs : InputsWellFormed s) (h : step s = .next t) :
    InputsWellFormed t :=
  fun i hi => hs i (mem_inputs_of_step h hi)

/-- Settles O36, by induction on the number of steps: a step from well-formed inputs is answered and leaves such. -/
theorem meaningfulInputsNeverStopTheCard : Obligations.MeaningfulInputsNeverStopTheCard := by
  intro n
  induction n with
  | zero => exact fun s hs => ⟨s, run_zero s, hs⟩
  | succ n ih =>
    intro s hs
    obtain ⟨u, hstep⟩ := hs.step_total
    obtain ⟨t, hrun, ht⟩ := ih u (hs.of_step hstep)
    exact ⟨t, (run_succ n hstep).trans hrun, ht⟩

/-! ## Diagnostic events -/

/-- R206, R222: a send that fails adds one `TransportSendFailure`, any other adds nothing. -/
theorem emitTx_warnLog (v : Byte) (s : State) :
    (emitTx v s).warnLog = s.warnLog ∨ (emitTx v s).warnLog = s.warnLog ++ [.transportSendFailure] := by
  cases hf : Config.sendFails s.drawCount
  · left; simp [emitTx_eq, hf]
  · right; simp [emitTx_eq, hf]

/-- Settles O30: by the event's effect, only a data write and a dropped byte reach the diagnostic history. -/
theorem diagnosticEventsHaveTheirCauses : Obligations.DiagnosticEventsHaveTheirCauses := by
  intro i s t h
  cases exec_effect h with
  | statusRead | dataRead | dataStall | flagsWrite | reset | nopRead | unchanged | enqueue => exact .inl rfl
  | dataWrite v => exact (emitTx_warnLog v s).imp_right fun hw => .inl ⟨v, rfl, hw⟩
  | drop b hl => exact .inr (.inr ⟨b, rfl, hl, rfl, rfl⟩)

end Sys2Proof.Machine
end

section
/-! Hazards (R269 to R273): the card that waits (R263), the data read that hangs or never stalls, and what status reads in
a row return. -/

namespace Sys2Proof.Machine

/-! ## Waiting -/

/-- A state that a step leaves as it is stays so for every number of steps. -/
theorem run_of_step_self {s : State} (h : step s = .next s) : ∀ n : Nat, run n s = .next s
  | 0 => run_zero s
  | n + 1 => (run_succ n h).trans (run_of_step_self h n)

/-- Settles O10: with an idle host and no input the arbiter waits. -/
theorem idleCardWaitsForAnEvent : Obligations.IdleCardWaitsForAnEvent :=
  fun n _ hp hi => run_of_step_self (step_wait (nextAction_idle_nil hp hi)) n

/-! ## The data read -/

/-- A data-in read at the head of an idle host's inputs stalls on an empty queue (R121). -/
theorem step_rdDataIn_empty {s : State} {rest : List Input} (hp : s.hostPending = .idle)
    (hi : s.inputs = .event 0x0E00#16 :: rest) (hq : s.card.receiveQueue = []) :
    step s = .next ((s.setInputs rest).setPending .stalledOnDataIn) :=
  (step_event hp hi decode_dataInWord).trans (exec_rdDataIn_nil hp hq)

/-- Settles O15: the first step stalls the read, and with only HOST inputs left the arbiter then waits for ever. -/
theorem dataReadOnEmptyQueueHangsForEver : Obligations.DataReadOnEmptyQueueHangsForEver := by
  intro n s rest hp hq hi hhost
  have hheld : step ((s.setInputs rest).setPending .stalledOnDataIn) = _ :=
    step_wait (nextAction_stalled_empty rfl hq hhost)
  exact (run_succ n (step_rdDataIn_empty hp hi hq)).trans (run_of_step_self hheld n)

/-- Settles O35: by R39 a clear bit 7 means a byte is queued, and the read takes it at once. -/
theorem dataReadNeverStallsAfterAvailable : Obligations.DataReadNeverStallsAfterAvailable := by
  intro s hs hp hclear
  obtain ⟨b, q, hq⟩ := List.exists_cons_of_ne_nil (hs.available hclear)
  exact ⟨b, q, finishDataIn b q s, hq, exec_rdDataIn_cons hp hq, hp, rfl, rfl⟩

/-! ## Status reads in a row -/

theorem decode_flagsInWord : decode 0x0B00#16 = .ok .rdFlagsIn := by decide

/-- A status read at the head of an idle host's inputs returns the flags as they were and leaves the host idle (R120). -/
theorem step_rdFlagsIn {s : State} {rest : List Input} (hp : s.hostPending = .idle)
    (hi : s.inputs = .event 0x0B00#16 :: rest) :
    ∃ u, step s = .next u ∧ u.hostPending = .idle ∧ u.inputs = rest ∧
      u.card.receiveQueue = s.card.receiveQueue ∧
      u.card.inputFlags = statusReadFlags s.card.inputFlags (!queueIsEmpty s.card.receiveQueue) ∧
      u.readLog = s.readLog ++ [⟨.register 0xB#4, s.card.inputFlags⟩] :=
  ⟨_, (step_event hp hi decode_flagsInWord).trans (exec_rdFlagsIn hp), hp, rfl, rfl, rfl, rfl⟩

/-- An inbound byte at the head of the inputs is queued behind an empty queue (R201). -/
theorem step_rxByte_empty {s : State} {b : Byte} {rest : List Input} (hi : s.inputs = .event (rxbWord b) :: rest)
    (hq : s.card.receiveQueue = []) : step s = .next ((s.setInputs rest).setQueue [b]) := by
  have hroom : (s.setInputs rest).card.receiveQueue.length < Config.QCAP := by simp [hq]
  rw [step_rxByte hi (decode_rxbWord b), exec_rxByte_room b hroom, setInputs_receiveQueue, hq, List.nil_append]

/-- Settles O43: the first read returns the flags from before the byte was seen, and its mutation shows in the second. -/
theorem availableAppearsOneReadLate : Obligations.AvailableAppearsOneReadLate := by
  intro s b rest hp hq hset hi
  have hqueued := step_rxByte_empty hi hq
  obtain ⟨u, hfirst, hup, hui, huq, huflags, hulog⟩ :=
    step_rdFlagsIn (s := (s.setInputs (.event 0x0B00#16 :: .event 0x0B00#16 :: rest)).setQueue [b]) hp rfl
  obtain ⟨t, hsecond, -, hti, htq, -, htlog⟩ := step_rdFlagsIn hup hui
  have hflags : u.card.inputFlags = statusReadFlags s.card.inputFlags true := huflags
  refine ⟨t, s.card.inputFlags, u.card.inputFlags, ?_, hti, htq.trans huq, ?_, hset, ?_, ?_⟩
  · rw [run_succ 2 hqueued, run_succ 1 hfirst, run_succ 0 hsecond, run_zero]
  · rw [htlog, hulog, List.append_assoc]
    rfl
  · rw [hflags]
    exact (receiveRequest_statusReadFlags _ true).trans (Bool.and_false _)
  · rw [hflags]
    exact sendConfirm_statusReadFlags _ true

/-- The first `n` values of a bit that starts at `b` and alternates. -/
def alternating (b : Bool) (n : Nat) : List Bool := (List.range n).map fun k => b != decide (k % 2 = 1)

/-- After its first value an alternating bit goes on from the complement. -/
theorem alternating_succ (b : Bool) (n : Nat) : alternating b (n + 1) = b :: alternating (!b) n := by
  have hodd (k : Nat) : decide ((k + 1) % 2 = 1) = !decide (k % 2 = 1) := by
    rw [← decide_not, decide_eq_decide]
    omega
  rw [alternating, List.range_succ_eq_map, List.map_cons, List.map_map]
  simp [alternating, hodd]

/-- Settles O44, by induction on the number of reads: each returns bit 6 as it stands and leaves its complement. -/
theorem sendConfirmAlternatesUnderPolling : Obligations.SendConfirmAlternatesUnderPolling := by
  intro n
  induction n with
  | zero => exact fun s rest _ hi => ⟨s, [], run_zero s, hi, (List.append_nil _).symm, rfl⟩
  | succ n ih =>
    intro s rest hp hi
    obtain ⟨u, hstep, hup, hui, -, huflags, hulog⟩ := step_rdFlagsIn hp hi
    obtain ⟨t, bytes, hrun, hti, htlog, hbits⟩ := ih u rest hup hui
    have hbit : u.card.inputFlags.getLsbD 6 = !s.card.inputFlags.getLsbD 6 := by
      rw [huflags]
      exact sendConfirm_statusReadFlags _ _
    refine ⟨t, s.card.inputFlags :: bytes, (run_succ n hstep).trans hrun, hti, ?_, ?_⟩
    · rw [htlog, hulog, List.append_assoc]
      rfl
    · rw [hbit] at hbits
      exact (congrArg _ hbits).trans (alternating_succ _ n).symm

end Sys2Proof.Machine
end

section
/-! Card Lifecycle: `RESET` (R260) and `CONSTRUCT` (R264, R265). -/

namespace Sys2Proof.Machine

/-- Settles O23: the word of RST, and on an idle host the reset of the card alone. -/
theorem resetEventEffect : Obligations.ResetEventEffect := ⟨rfl, fun _ hp => exec_reset hp⟩

/-! ## Construction -/

/-- Populating a byte with what its offset reads as unlisted lists nothing. -/
theorem Memory.write_unlisted_nil (w : FwWindow) (a : Nat) : Memory.write w [] a (w.unlisted a) = [] := by
  unfold Memory.write
  split
  · rw [if_pos rfl, Memory.erase]
  · rfl

/-- An image that holds the window's parameters populates nothing: the canonical form of R165 lists no such byte. -/
theorem Memory.populate_unlisted_nil (w : FwWindow) (n a : Nat) :
    Memory.populate w a ((List.range' a n).map w.unlisted) [] = [] := by
  induction n generalizing a with
  | zero => rfl
  | succ n ih => rw [List.range'_succ, List.map_cons, Memory.populate, Memory.write_unlisted_nil, ih]

/-- Construction with an image gives the reset state with the peer and the populated windows (R264, R265). -/
theorem construct_image (peer : PeerEndpoint) (img : FirmwareImage) :
    construct peer (some img) true =
      .ok { State.reset with
        card := { State.reset.card with peerEndpoint := peer }
        fwA := Memory.populate .a 0 img.fwA []
        fwB := Memory.populate .b 0 img.fwB [] } := rfl

/-- Settles O49: each result as `construct` gives it; an image of the parameters themselves leaves both windows at their
reset value, the empty list. -/
theorem constructionGivesTheResetState : Obligations.ConstructionGivesTheResetState := by
  refine ⟨fun _ => rfl, fun peer img => ⟨_, _, construct_image peer img⟩, fun _ _ => rfl, ?_⟩
  have hA : Memory.populate .a 0 ((List.range' 0 256).map Config.FW_A) [] = [] :=
    Memory.populate_unlisted_nil .a 256 0
  have hB : Memory.populate .b 0 ((List.range' 0 1792).map Config.FW_B) [] = [] :=
    Memory.populate_unlisted_nil .b 1792 0
  rw [construct_image, List.range_eq_range', List.range_eq_range', hA, hB]
  rfl

end Sys2Proof.Machine
end
